-- ==== Sys2Proof/Word.lean ====
section
/-! DEFINITION. The word types of the block: octets, 16-bit header words, 32-bit registers (R6, R10). -/

namespace Sys2Proof

/-- A 32-bit register value (R12, R15 to R18). -/
abbrev Word := BitVec 32

/-- A 16-bit header or summation word (R6). -/
abbrev Half := BitVec 16

/-- An octet of `WIRE` or `PAY` (R22). -/
abbrev Byte := BitVec 8

end Sys2Proof
end

