-- ==== Sys2Proof/Config.lean ====
section
/-! DEFINITION. What an implementation of the block fixes: the spec's two parameters (R5, R40). -/

namespace Sys2Proof

/-- The parameters of one implementation. The model takes them as an argument: they ride in the state, and no step
changes them. -/
structure Config where
  /-- `BUF_MAX`, the capacity in octets of each of `WIRE` and `PAY` (R5). -/
  bufMax : Nat
  /-- `BASE`, where the block sits in a platform's address map; no rule depends on it (R40). -/
  base : Nat
  deriving DecidableEq, Repr

/-- R5: the constraint on `BUF_MAX`. -/
abbrev Config.wf (c : Config) : Prop := 4 ≤ c.bufMax ∧ c.bufMax ≤ 2 ^ 32 - 1

end Sys2Proof
end

