-- ==== Sys2Proof/Syntax.lean ====
section
/-! DEFINITION. The three commands, one constructor per row of the opcode table (R51). -/

namespace Sys2Proof

/-- A command of the block. -/
inductive Instr where
  /-- `ENCODE` (R70). -/
  | encode
  /-- `DECODE SKIP` (R80); `skip` is the number of leading octets of `WIRE` to skip. -/
  | decode (skip : Nat)
  /-- `CHECKSUM` (R96). -/
  | checksum
  deriving DecidableEq, Repr

end Sys2Proof
end

