-- ==== Sys2Proof/WellFormed.lean ====
section
/-! DEFINITION. Which commands a command word can spell (R50). -/

namespace Sys2Proof

/-- R50, R51: `SKIP` is a 16-bit field, `0..0xFFFF`. -/
abbrev Instr.wf : Instr → Prop
  | .encode => True
  | .decode skip => skip ≤ 0xFFFF
  | .checksum => True

end Sys2Proof
end

