-- ==== Sys2Proof/Decode.lean ====
section
/-! DEFINITION. Command words: the decoder, total on all 32-bit words and rejecting by name, then the encoder
(R50, R51, R52), and the rows of the opcode table as masks. -/

namespace Sys2Proof

/-- Why a word spells no command (R52's three cases). -/
inductive IllegalWord where
  /-- `RSV ≠ 0`. -/
  | reservedNonzero
  /-- `OP` is 0x00 or 0x04..0xFF. -/
  | unknownOp
  /-- `SKIP ≠ 0` with `OP` 0x01 or 0x03. -/
  | skipNonzero
  deriving DecidableEq, Repr

/-- What the decoder answers. -/
inductive Decoded where
  | command (i : Instr)
  | illegal (why : IllegalWord)
  deriving DecidableEq, Repr

/-- R50: `OP`, bits 7:0. -/
def opField (w : Word) : Byte := w.extractLsb' 0 8

/-- R50: `RSV`, bits 15:8. -/
def rsvField (w : Word) : Byte := w.extractLsb' 8 8

/-- R50: `SKIP`, bits 31:16. -/
def skipField (w : Word) : Half := w.extractLsb' 16 16

/-- R51, R52: the command a word spells, or why it spells none. -/
def decodeWord (w : Word) : Decoded :=
  if rsvField w ≠ 0#8 then .illegal .reservedNonzero
  else if opField w = 0x01#8 then
    if skipField w = 0#16 then .command .encode else .illegal .skipNonzero
  else if opField w = 0x02#8 then .command (.decode (skipField w).toNat)
  else if opField w = 0x03#8 then
    if skipField w = 0#16 then .command .checksum else .illegal .skipNonzero
  else .illegal .unknownOp

/-- R50: a word laid out from its fields, `RSV` zero. -/
def commandWord (skip : Half) (op : Byte) : Word := (skip.setWidth 32 <<< 16) ||| op.setWidth 32

/-- R51: the word of a command; of a command that no word spells (`SKIP` over 16 bits) it is a word of no meaning. -/
def encode : Instr → Word
  | .encode => commandWord 0 0x01
  | .decode skip => commandWord (BitVec.ofNat 16 skip) 0x02
  | .checksum => commandWord 0 0x03

/-- One row of R51's table: a word `w` matches iff `w &&& mask = match`. -/
structure OpcodeRow where
  bits : Word
  mask : Word
  deriving DecidableEq, Repr

/-- R51's `match` and `mask` columns. -/
def opcodeRow : Instr → OpcodeRow
  | .encode => { bits := 0x00000001, mask := 0xFFFFFFFF }
  | .decode _ => { bits := 0x00000002, mask := 0x0000FFFF }
  | .checksum => { bits := 0x00000003, mask := 0xFFFFFFFF }

/-- R51: `(w & mask) = match`. -/
abbrev OpcodeRow.Matches (r : OpcodeRow) (w : Word) : Prop := w &&& r.mask = r.bits

/-- The command, if there is one. -/
def Decoded.instr? : Decoded → Option Instr
  | .command i => some i
  | .illegal _ => none

/-- The word whose lowest `nbits` bits are those of `w` and whose other bits are 0. -/
def tableWord (nbits w : Nat) : Word := BitVec.ofNat 32 (w % 2 ^ nbits)

/-- The command the decoder reads from the opcode-table word `w` of `nbits` bits. -/
def decodeTableWord (nbits w : Nat) : Option Instr := (decodeWord (tableWord nbits w)).instr?

end Sys2Proof
end

