-- ==== Sys2Proof/Machine/Capacity.lean ====
section
/-! DEFINITION. The parameters of the implementation that `State.reset` stands for: the model's choice, not the spec's. -/

namespace Sys2Proof.Machine

/-- DESIGN CHOICE (notes/assumptions/1.md and 2.md), unsafe: R5 leaves `BUF_MAX` open and R40 leaves `BASE` open.
`0x20000` leaves room for an image behind every `SKIP` that a command word can spell. -/
def resetConfig : Config := { bufMax := 0x20000, base := 0 }

end Sys2Proof.Machine
end

