-- ==== Sys2Proof/Machine/State.lean ====
section
/-! DEFINITION. The state of the block (10_state.md), the inputs it takes, and the ways a step can stop. -/

namespace Sys2Proof.Machine

/-- Why a step stops with a model fault. -/
inductive Fault where
  /-- R44: a host `ReadOctet` or a command's `MemRead` covers an octet that nothing has written since reset. Raised by
  both; safe (R44: "errs toward unprovable"). -/
  | unwrittenByte
  deriving DecidableEq, Repr

/-- Why a step is refused. All but `notModelled` are R34's and R47's refused host actions; all are safe (R34: "errs
toward unprovable"). Which of several grounds is named is the model's choice (notes/assumptions/9.md). -/
inductive Refusal where
  /-- An instruction that has no meaning yet: raised by `exec` only, and by none of its arms now; safe. -/
  | notModelled (mnemonic : String)
  /-- R34: a register access at a reserved offset; raised by register reads and writes; safe. -/
  | reservedOffset
  /-- R34: a register access at an offset that is not a multiple of 4 or not below 0x100; safe. -/
  | badOffset
  /-- R34: a register access narrower than 32 bits; safe. -/
  | narrowAccess
  /-- R34: a write to `WIRE_LEN` or `PAY_LEN` of a value over `BUF_MAX`; safe. -/
  | lengthTooLarge
  /-- R34: an octet access at an index not below `BUF_MAX`; safe. -/
  | indexOutOfRange
  /-- R47: an action that is not in the host interface table; safe. -/
  | outsideContract
  deriving DecidableEq, Repr

/-- R18: the ten field registers, by name. -/
inductive FieldIndex where
  | cp | kp | sp | res0 | ver | proto | csum | res1 | key | seq
  deriving DecidableEq, Repr

/-- R18: the header field register file, `F[0]` to `F[9]` in order. -/
structure Fields where
  cp : Word
  kp : Word
  sp : Word
  res0 : Word
  ver : Word
  proto : Word
  csum : Word
  res1 : Word
  key : Word
  seq : Word
  deriving DecidableEq, Repr

/-- R31: the mapped registers. -/
inductive Reg where
  | cmd | status | csumResult | wireLen | payLen
  | field (i : FieldIndex)
  deriving DecidableEq, Repr

/-- R22: the two buffers. -/
inductive Buf where
  | wire | pay
  deriving DecidableEq, Repr

/-- How wide a register access is; only `word` is inside the host contract (R34). -/
inductive Width where
  | byte | half | word
  deriving DecidableEq, Repr

/-- R47: what the host may do, with the forms R34 refuses among them. -/
inductive HostAction where
  /-- `ReadReg(offset)` (R32). -/
  | readReg (offset : Nat) (width : Width)
  /-- `WriteReg(offset, value)` (R33); at the offset of `CMD` it issues a command. -/
  | writeReg (offset : Nat) (width : Width) (value : Word)
  /-- `WriteOctet(buf, index, octet)` (R35). -/
  | writeOctet (buf : Buf) (index : Nat) (octet : Byte)
  /-- `ReadOctet(buf, index)` (R35). -/
  | readOctet (buf : Buf) (index : Nat)
  /-- Any action outside R47's table. -/
  | other
  deriving DecidableEq, Repr

/-- What reaches the block from outside: a host action, or reset, taken between host actions (R115). -/
inductive Input where
  | host (a : HostAction)
  | reset
  deriving DecidableEq, Repr

/-- What the host gets back from an input (R47's last column). -/
inductive Reply where
  | nothing
  | word (v : Word)
  | octet (b : Byte)
  deriving DecidableEq, Repr

/-- The octets of a buffer that carry a written mark (R23), with their values: addresses strictly rising. An octet that
is not listed is unwritten, and has no value (R44, R116; DEDUCED, notes/assumptions/6.md). -/
abbrev Memory := List Host.Cell

/-- The canonical form. There is no value an unlisted octet reads as, so the order is all it asks. -/
abbrev Memory.wf (m : Memory) : Prop := m.Pairwise fun x y => x.1 < y.1

/-- R10: the whole state, with the marks of R23 and R24, and the model's own `cfg`, `pending` and `reply`. -/
structure State where
  /-- The implementation's parameters; constant (R5, R40). -/
  cfg : Config
  /-- `CMD` (R15). -/
  cmd : Word
  /-- `STATUS` (R12). -/
  status : Word
  /-- `CSUM_RESULT` (R16). -/
  csumResult : Word
  /-- `WIRE_LEN` (R17). -/
  wireLen : Word
  /-- `PAY_LEN` (R17). -/
  payLen : Word
  /-- `F[0]` to `F[9]` (R18). -/
  f : Fields
  /-- `WIRE` (R22), with its written marks (R23). -/
  wire : Memory
  /-- `PAY` (R22), with its written marks (R23). -/
  pay : Memory
  /-- The sticky fault mark (R24). -/
  faultMark : Bool
  /-- The sticky refusal mark (R24). -/
  refusedMark : Bool
  /-- The inputs still to come, in program order (R9, R41; notes/assumptions/3.md). -/
  pending : List Input
  /-- What the host got back from the last input (R47; notes/assumptions/5.md). -/
  reply : Reply
  deriving DecidableEq, Repr

/-- R18's reset column: the source's default header. -/
def Fields.reset : Fields :=
  { cp := 0, kp := 0, sp := 0, res0 := 0, ver := 0, proto := 0x0800, csum := 0, res1 := 0, key := 0, seq := 0 }

/-- R115 to R117: the state at power-on of an implementation with the parameters `c`. -/
def State.resetWith (c : Config) : State :=
  { cfg := c, cmd := 0, status := 0, csumResult := 0, wireLen := 0, payLen := 0, f := Fields.reset, wire := [], pay := [],
    faultMark := false, refusedMark := false, pending := [], reply := .nothing }

/-- R117: the state at power-on; its parameters are the model's choice (notes/assumptions/1.md and 2.md). -/
def State.reset : State := State.resetWith resetConfig

/-- The outcomes of an action or a step. -/
abbrev Result := Host.Outcome State Fault Refusal

end Sys2Proof.Machine
end

