-- ==== Sys2Proof/Machine/Flags.lean ====
section
/-! DEFINITION. `STATUS`, the block's only status indication (R11): its codes, its layout (R12 to R14). -/

namespace Sys2Proof.Machine

/-- R13: the outcomes of a command. -/
inductive Code where
  | ok | invalidFieldWidth | truncatedHeader | illegalCommand | capacityExceeded
  deriving DecidableEq, Repr

/-- R13: the number of a code. -/
def codeNumber : Code → Nat
  | .ok => 0
  | .invalidFieldWidth => 1
  | .truncatedHeader => 2
  | .illegalCommand => 3
  | .capacityExceeded => 4

/-- R12: `INFO` in bits 31:16, zeros in 15:4, `CODE` in 3:0. -/
def statusWord (c : Code) (info : Nat) : Word :=
  ((BitVec.ofNat 16 info).setWidth 32 <<< 16) ||| BitVec.ofNat 32 (codeNumber c)

/-- R12: `STATUS.CODE`. -/
def statusCode (w : Word) : BitVec 4 := w.extractLsb' 0 4

/-- R12: the reserved bits 15:4. -/
def statusReserved (w : Word) : BitVec 12 := w.extractLsb' 4 12

/-- R12: `STATUS.INFO`. -/
def statusInfo (w : Word) : Half := w.extractLsb' 16 16

/-- R14: which `INFO` values go with which code. -/
def infoFits : Code → Nat → Bool
  | .ok, n => n == 0
  | .invalidFieldWidth, n => n ≤ 9
  | .truncatedHeader, n => n == 4 || n == 8 || n == 12 || n == 16
  | .illegalCommand, n => n == 0
  | .capacityExceeded, n => n == 0

end Sys2Proof.Machine
end

