-- ==== Sys2Proof/Machine/Operands.lean ====
section
/-! DEFINITION. The operands of commands and host actions: field registers and their validity (R18 to R20), the `REG`
map (R31), header shapes (R60), octet order (R37). -/

namespace Sys2Proof.Machine

/-! ### Field registers -/

/-- R18: the index of a field register. -/
def fieldNumber : FieldIndex → Nat
  | .cp => 0
  | .kp => 1
  | .sp => 2
  | .res0 => 3
  | .ver => 4
  | .proto => 5
  | .csum => 6
  | .res1 => 7
  | .key => 8
  | .seq => 9

/-- R18's "legal values": the greatest one. -/
def fieldMax : FieldIndex → Nat
  | .cp => 1
  | .kp => 1
  | .sp => 1
  | .res0 => 0x1FF
  | .ver => 7
  | .proto => 0xFFFF
  | .csum => 0xFFFF
  | .res1 => 0xFFFF
  | .key => 0xFFFFFFFF
  | .seq => 0xFFFFFFFF

/-- `F[i]`. -/
def Fields.get (f : Fields) : FieldIndex → Word
  | .cp => f.cp
  | .kp => f.kp
  | .sp => f.sp
  | .res0 => f.res0
  | .ver => f.ver
  | .proto => f.proto
  | .csum => f.csum
  | .res1 => f.res1
  | .key => f.key
  | .seq => f.seq

/-- `F[i] <- v`. -/
def Fields.set (f : Fields) (i : FieldIndex) (v : Word) : Fields :=
  match i with
  | .cp => { f with cp := v }
  | .kp => { f with kp := v }
  | .sp => { f with sp := v }
  | .res0 => { f with res0 := v }
  | .ver => { f with ver := v }
  | .proto => { f with proto := v }
  | .csum => { f with csum := v }
  | .res1 => { f with res1 := v }
  | .key => { f with key := v }
  | .seq => { f with seq := v }

/-- R19: `Valid(i, v)`. -/
def fieldValid (i : FieldIndex) (v : Word) : Bool := v.toNat ≤ fieldMax i

/-- R19, R103: the first of the registers `is` that fails its check. -/
def firstInvalid (is : List FieldIndex) (f : Fields) : Option FieldIndex :=
  is.find? fun i => !fieldValid i (f.get i)

/-- R71: what `ENCODE` checks, in its order. -/
def encodeChecked (f : Fields) : List FieldIndex :=
  [.cp, .kp, .sp, .res0, .ver, .proto] ++ if f.cp = 1#32 then [.res1] else []

/-- R96: what `CHECKSUM` checks, in its order. -/
def checksumChecked : List FieldIndex := [.cp, .kp, .sp, .res0, .ver, .proto, .res1]

/-- R21: `F[0..5]` equal, and each optional field equal when its flag is 1. -/
def Fields.EqualModuloAbsence (f g : Fields) : Prop :=
  f.cp = g.cp ∧ f.kp = g.kp ∧ f.sp = g.sp ∧ f.res0 = g.res0 ∧ f.ver = g.ver ∧ f.proto = g.proto ∧
    (f.cp = 1#32 → f.csum = g.csum ∧ f.res1 = g.res1) ∧ (f.kp = 1#32 → f.key = g.key) ∧ (f.sp = 1#32 → f.seq = g.seq)

/-! ### The register map -/

/-- R31: the offset of a register. -/
def regOffset : Reg → Nat
  | .cmd => 0x00
  | .status => 0x04
  | .csumResult => 0x08
  | .wireLen => 0x0C
  | .payLen => 0x10
  | .field i => 0x20 + 4 * fieldNumber i

/-- R31: the register at an offset; `none` at a reserved or unmapped one. -/
def regAt (offset : Nat) : Option Reg :=
  match offset with
  | 0x00 => some .cmd
  | 0x04 => some .status
  | 0x08 => some .csumResult
  | 0x0C => some .wireLen
  | 0x10 => some .payLen
  | 0x20 => some (.field .cp)
  | 0x24 => some (.field .kp)
  | 0x28 => some (.field .sp)
  | 0x2C => some (.field .res0)
  | 0x30 => some (.field .ver)
  | 0x34 => some (.field .proto)
  | 0x38 => some (.field .csum)
  | 0x3C => some (.field .res1)
  | 0x40 => some (.field .key)
  | 0x44 => some (.field .seq)
  | _ => none

/-- R34: the register an access of width `w` at `offset` reaches, or the ground it is refused on. The order in which
the grounds are looked at is a DESIGN CHOICE (notes/assumptions/9.md): it decides only which name the refusal carries. -/
def resolveReg (offset : Nat) (w : Width) : Except Refusal Reg :=
  if w ≠ .word then .error .narrowAccess
  else if offset % 4 ≠ 0 ∨ 0x100 ≤ offset then .error .badOffset
  else match regAt offset with
    | some r => .ok r
    | none => .error .reservedOffset

/-! ### Header shapes -/

/-- R60: which optional parts a header has. -/
structure Shape where
  c : Bool
  k : Bool
  s : Bool
  deriving DecidableEq, Repr

/-- R20: a part is present iff its flag register is 1. -/
def shapeOfFields (f : Fields) : Shape := { c := f.cp = 1#32, k := f.kp = 1#32, s := f.sp = 1#32 }

/-- R57: the flags of a received word 0. -/
def shapeOfWord0 (w0 : Half) : Shape := { c := w0.getLsbD 15, k := w0.getLsbD 13, s := w0.getLsbD 12 }

/-- The octets an optional part takes on the wire: 4 when present, none when absent (R62). -/
def partLength (present : Bool) : Nat := if present then 4 else 0

/-- R60: where the key stands, when present. -/
def Shape.keyOffset (sh : Shape) : Nat := 4 + partLength sh.c

/-- R60: where the sequence number stands, when present. -/
def Shape.seqOffset (sh : Shape) : Nat := 4 + partLength sh.c + partLength sh.k

/-- R60: `H = 4 + 4·C + 4·K + 4·S`. -/
def Shape.headerLength (sh : Shape) : Nat := 4 + partLength sh.c + partLength sh.k + partLength sh.s

/-! ### Octet order -/

/-- R37: `BE16`. -/
def be16 (v : Half) : List Byte := [v.extractLsb' 8 8, v.extractLsb' 0 8]

/-- R37: `BE32`. -/
def be32 (v : Word) : List Byte :=
  [v.extractLsb' 24 8, v.extractLsb' 16 8, v.extractLsb' 8 8, v.extractLsb' 0 8]

/-- R37: `(hi << 8) | lo`, 16 bits. -/
def octetPair (hi lo : Byte) : Half := (hi.setWidth 16 <<< 8) ||| lo.setWidth 16

/-- R80: `(hi << 16) | lo`, 32 bits. -/
def halfPair (hi lo : Half) : Word := (hi.setWidth 32 <<< 16) ||| lo.setWidth 32

/-- R37: `W16(s, i)`. Past the end of `s` the model reads 0; no command does that (notes/assumptions/10.md). -/
def w16 (s : List Byte) (i : Nat) : Half := octetPair (s.getD i 0) (s.getD (i + 1) 0)

/-- R80: `(W16(s, i) << 16) | W16(s, i + 2)`. -/
def w32 (s : List Byte) (i : Nat) : Word := halfPair (w16 s i) (w16 s (i + 2))

/-- The low 16 bits of a register, where a 16-bit field is used. -/
def lowHalf (v : Word) : Half := v.extractLsb' 0 16

/-- `F_KEY[31:16]` and the like (R37). -/
def highHalf (v : Word) : Half := v.extractLsb' 16 16

/-- A 16-bit value placed in a 32-bit register: `zext_32`. -/
def zext32 (v : Half) : Word := v.setWidth 32

end Sys2Proof.Machine
end

