-- ==== Sys2Proof/Machine/Ops.lean ====
section
/-! DEFINITION. The named operations over buffers and registers, ending a command (`finish`, `raise`), and reset. -/

namespace Sys2Proof.Machine

/-! ### One update a field -/

def State.setCmd (s : State) (v : Word) : State := { s with cmd := v }
def State.setStatus (s : State) (v : Word) : State := { s with status := v }
def State.setCsumResult (s : State) (v : Word) : State := { s with csumResult := v }
def State.setWireLen (s : State) (v : Word) : State := { s with wireLen := v }
def State.setPayLen (s : State) (v : Word) : State := { s with payLen := v }
def State.setFields (s : State) (f : Fields) : State := { s with f := f }
def State.setWire (s : State) (m : Memory) : State := { s with wire := m }
def State.setPay (s : State) (m : Memory) : State := { s with pay := m }
def State.setFaultMark (s : State) (b : Bool) : State := { s with faultMark := b }
def State.setRefusedMark (s : State) (b : Bool) : State := { s with refusedMark := b }
def State.setPending (s : State) (l : List Input) : State := { s with pending := l }
def State.setReply (s : State) (r : Reply) : State := { s with reply := r }

/-! ### One octet -/

/-- The octet at an index, when it carries a written mark (R23, R35). -/
def Memory.read : Memory → Nat → Option Byte
  | [], _ => none
  | (k, v) :: r, a => if k = a then some v else Memory.read r a

/-- R35: sets an octet and its written mark. -/
def Memory.write : Memory → Nat → Byte → Memory
  | [], a, b => [(a, b)]
  | (k, v) :: r, a, b =>
    if a < k then (a, b) :: (k, v) :: r
    else if a = k then (a, b) :: r
    else (k, v) :: Memory.write r a b

/-! ### Octet sequences (R42) -/

/-- R42: `MemRead(S, a, n)`; `none` where an octet carries no written mark. -/
def memRead (m : Memory) (a : Nat) : Nat → Option (List Byte)
  | 0 => some []
  | n + 1 =>
    match m.read a with
    | none => none
    | some b =>
      match memRead m (a + 1) n with
      | none => none
      | some r => some (b :: r)

/-- R42: `MemWrite(S, a, s)`. -/
def memWrite (m : Memory) (a : Nat) : List Byte → Memory
  | [] => m
  | b :: r => memWrite (m.write a b) (a + 1) r

/-- A buffer of the block. -/
def State.buf (s : State) : Buf → Memory
  | .wire => s.wire
  | .pay => s.pay

/-- Replaces a buffer's content. -/
def State.setBuf (s : State) (b : Buf) (m : Memory) : State :=
  match b with
  | .wire => s.setWire m
  | .pay => s.setPay m

/-! ### Registers -/

/-- R32: a register's current value. -/
def State.readReg (s : State) : Reg → Word
  | .cmd => s.cmd
  | .status => s.status
  | .csumResult => s.csumResult
  | .wireLen => s.wireLen
  | .payLen => s.payLen
  | .field i => s.f.get i

/-! ### Ending a command -/

/-- `finish(code, info)` (R12, 00_scope.md section 4): writes `STATUS`. -/
def State.finish (s : State) (c : Code) (info : Nat) : State := s.setStatus (statusWord c info)

/-- `raise E(info)` (R102): ends the command with an error; nothing but `STATUS` is written. -/
def raise (c : Code) (info : Nat) (s : State) : Result := .next (s.finish c info)

/-- `MemRead` inside a command (R42, R44): goes on with the octets, or faults on an unwritten one. -/
def withOctets (m : Memory) (a n : Nat) (go : List Byte → Result) : Result :=
  match memRead m a n with
  | none => .fault .unwrittenByte
  | some b => go b

/-! ### Reset -/

/-- R115: the reset action. It leaves the sticky marks (R24); of the model's own fields it keeps the parameters and the
inputs still to come (DESIGN CHOICE, notes/assumptions/13.md). -/
def State.takeReset (s : State) : State :=
  { State.resetWith s.cfg with faultMark := s.faultMark, refusedMark := s.refusedMark, pending := s.pending }

end Sys2Proof.Machine
end

