-- ==== Sys2Proof/Machine/Checksum.lean ====
section
/-! DEFINITION. The ChecksumEngine: the function (R90 to R93), the two accumulators an implementation may use (R94),
and the command `CHECKSUM` (R96). -/

namespace Sys2Proof.Machine

/-- R56: word 0 from field values. Of values that fail `Valid` the model keeps the bits that fit in 16 (DESIGN CHOICE,
notes/assumptions/10.md); no command builds word 0 from those. -/
def word0 (f : Fields) : Half :=
  (lowHalf f.cp <<< 15) ||| (lowHalf f.kp <<< 13) ||| (lowHalf f.sp <<< 12) ||| (lowHalf f.res0 <<< 3) ||| lowHalf f.ver

/-- R91: the payload as big-endian 16-bit words, an odd last octet paired with a zero low octet. -/
def payloadWords : List Byte → List Half
  | [] => []
  | [b] => [octetPair b 0]
  | b :: b' :: r => octetPair b b' :: payloadWords r

/-- R90 items 5 and 6: an optional 32-bit field as two words, high half first. -/
def optionalWords (present : Bool) (v : Word) : List Half :=
  if present then [highHalf v, lowHalf v] else []

/-- R90: the word list. The checksum word is zero; `F_CSUM` is not read. Of an `F_PROTO` or `F_RES1` over 16 bits, for
which R90 gives no word, the model takes the low 16 bits (DESIGN CHOICE, notes/assumptions/10.md); no command sums the
words of such a header. -/
def checksumWords (f : Fields) (p : List Byte) : List Half :=
  [word0 f, lowHalf f.proto, 0, lowHalf f.res1] ++ optionalWords (f.kp = 1#32) f.key ++ optionalWords (f.sp = 1#32) f.seq ++
    payloadWords p

/-- R92: the exact sum. -/
def wordSum (ws : List Half) : Nat := (ws.map BitVec.toNat).sum

/-- R92's loop, `fuel` rounds of it at most. -/
def foldRounds : Nat → Nat → Nat
  | 0, s => s
  | fuel + 1, s => if 0xFFFF < s then foldRounds fuel ((s >>> 16) + (s &&& 0xFFFF)) else s

/-- R92: `Fold(Sum)`. Each round makes the value smaller, so `Sum` rounds are enough for the loop to end
(DEDUCED, notes/assumptions/11.md). -/
def fold (sum : Nat) : Nat := foldRounds sum sum

/-- R93: `~16 Fold(Sum)`, for fields that fail `Valid` as `checksumWords` has them (notes/assumptions/10.md). -/
def checksum (f : Fields) (p : List Byte) : Half := ~~~ BitVec.ofNat 16 (fold (wordSum (checksumWords f p)))

/-- R94, second method: end-around carry after every word. -/
def endAroundSum (ws : List Half) : Nat := ws.foldl (fun r w => fold (r + w.toNat)) 0

/-- R94, first method: a `k`-bit accumulator, which wraps. -/
def accumulate (k : Nat) (ws : List Half) : Nat := ws.foldl (fun r w => (r + w.toNat) % 2 ^ k) 0

/-- R96: `CHECKSUM`. -/
def execChecksum (s : State) : Result :=
  match firstInvalid checksumChecked s.f with
  | some i => raise .invalidFieldWidth (fieldNumber i) s
  | none =>
    withOctets s.pay 0 s.payLen.toNat fun p =>
      .next ((s.setCsumResult (zext32 (checksum s.f p))).finish .ok 0)

end Sys2Proof.Machine
end

