-- ==== Sys2Proof/Machine/HeaderCodec.lean ====
section
/-! DEFINITION. The HeaderCodec: the wire image (R55 to R62) and the commands `ENCODE` (R70) and `DECODE` (R80). -/

namespace Sys2Proof.Machine

/-! ### ENCODE -/

/-- R70: the (checksum, reserved1) pair, when present. -/
def checksumPart (f : Fields) (p : List Byte) : List Byte :=
  if f.cp = 1#32 then be16 (checksum f p) ++ be16 (lowHalf f.res1) else []

/-- R70: a 32-bit part, when present. -/
def optionalPart (present : Bool) (v : Word) : List Byte := if present then be32 v else []

/-- R59, R73: the wire image of a header and its payload. Of an `F_PROTO` or a present `F_RES1` over 16 bits it has the
low 16 bits (DESIGN CHOICE, notes/assumptions/10.md); no command writes the image of such a header. -/
def wireImage (f : Fields) (p : List Byte) : List Byte :=
  be16 (word0 f) ++ be16 (lowHalf f.proto) ++ checksumPart f p ++ optionalPart (f.kp = 1#32) f.key ++
    optionalPart (f.sp = 1#32) f.seq ++ p

/-- R61: `L = H + PAY_LEN`, exact. -/
def encodeLength (s : State) : Nat := (shapeOfFields s.f).headerLength + s.payLen.toNat

/-- R70: `ENCODE`. -/
def execEncode (s : State) : Result :=
  match firstInvalid (encodeChecked s.f) s.f with
  | some i => raise .invalidFieldWidth (fieldNumber i) s
  | none =>
    if s.cfg.bufMax < encodeLength s then raise .capacityExceeded 0 s
    else
      withOctets s.pay 0 s.payLen.toNat fun p =>
        .next (((s.setWire (memWrite s.wire 0 (wireImage s.f p))).setWireLen (BitVec.ofNat 32 (encodeLength s))).finish
          .ok 0)

/-! ### DECODE -/

/-- R81: `m`, how many octets remain behind `SKIP`. -/
def remaining (skip : Nat) (s : State) : Nat := if s.wireLen.toNat < skip then 0 else s.wireLen.toNat - skip

/-- R80, R83: the field registers of a decoded image `b`, absent fields 0. -/
def decodedFields (b : List Byte) : Fields :=
  let w0 := w16 b 0
  let sh := shapeOfWord0 w0
  { cp := if sh.c then 1 else 0
    kp := if sh.k then 1 else 0
    sp := if sh.s then 1 else 0
    res0 := (w0.extractLsb' 3 9).setWidth 32
    ver := (w0.extractLsb' 0 3).setWidth 32
    proto := zext32 (w16 b 2)
    csum := if sh.c then zext32 (w16 b 4) else 0
    res1 := if sh.c then zext32 (w16 b 6) else 0
    key := if sh.k then w32 b sh.keyOffset else 0
    seq := if sh.s then w32 b sh.seqOffset else 0 }

/-- R84: the payload of a decoded image. -/
def decodedPayload (b : List Byte) : List Byte := b.drop (shapeOfWord0 (w16 b 0)).headerLength

/-- R80: what a successful `DECODE` of the image `b` writes. -/
def storeDecoded (b : List Byte) (s : State) : State :=
  (((s.setFields (decodedFields b)).setPay (memWrite s.pay 0 (decodedPayload b))).setPayLen
    (BitVec.ofNat 32 (decodedPayload b).length)).finish .ok 0

/-- R80: `DECODE SKIP`. -/
def execDecode (skip : Nat) (s : State) : Result :=
  let m := remaining skip s
  if m < 4 then raise .truncatedHeader 4 s
  else
    withOctets s.wire skip 2 fun first =>
      let h := (shapeOfWord0 (w16 first 0)).headerLength
      if m < h then raise .truncatedHeader h s
      else withOctets s.wire skip m fun b => .next (storeDecoded b s)

end Sys2Proof.Machine
end

