-- ==== Sys2Proof/Machine/Dispatch.lean ====
section
/-! DEFINITION. The meaning of each command. -/

namespace Sys2Proof.Machine

def exec (i : Instr) (s : State) : Host.Outcome State Fault Refusal :=
  match i with
  | .encode => Sys2Proof.Machine.execEncode s
  | .decode skip => Sys2Proof.Machine.execDecode skip s
  | .checksum => Sys2Proof.Machine.execChecksum s

end Sys2Proof.Machine
end

