-- ==== Sys2Proof/Machine/Port.lean ====
section
/-! DEFINITION. The host port: register and octet accesses (R32 to R35), the issue of a command (R15), and the view of
an input with the sticky marks of R24. -/

namespace Sys2Proof.Machine

/-- R15, R33, R52: a write to `CMD` stores the word, then the command it encodes executes; a word that encodes none
finishes with `IllegalCommand(0)`. -/
def issue (w : Word) (s : State) : Result :=
  match decodeWord w with
  | .command i => exec i (s.setCmd w)
  | .illegal _ => raise .illegalCommand 0 (s.setCmd w)

/-- R33, R34: a length register takes values up to `BUF_MAX`. -/
def writeLength (v : Word) (s t : State) : Result :=
  if v.toNat ≤ s.cfg.bufMax then .next t else .refused .lengthTooLarge

/-- R33: a host write of a mapped register. -/
def writeReg (r : Reg) (v : Word) (s : State) : Result :=
  match r with
  | .cmd => issue v s
  | .status => .next s
  | .csumResult => .next s
  | .wireLen => writeLength v s (s.setWireLen v)
  | .payLen => writeLength v s (s.setPayLen v)
  | .field i => .next (s.setFields (s.f.set i v))

/-- R35: `WriteOctet`. -/
def writeOctet (b : Buf) (a : Nat) (v : Byte) (s : State) : Result :=
  if a < s.cfg.bufMax then .next (s.setBuf b ((s.buf b).write a v)) else .refused .indexOutOfRange

/-- R35, R44: `ReadOctet`. -/
def readOctet (b : Buf) (a : Nat) (s : State) : Result :=
  if a < s.cfg.bufMax then
    match (s.buf b).read a with
    | some v => .next (s.setReply (.octet v))
    | none => .fault .unwrittenByte
  else .refused .indexOutOfRange

/-- R32 to R35, R47: one host action. -/
def hostAction (a : HostAction) (s : State) : Result :=
  match a with
  | .readReg o w =>
    match resolveReg o w with
    | .ok r => .next (s.setReply (.word (s.readReg r)))
    | .error e => .refused e
  | .writeReg o w v =>
    match resolveReg o w with
    | .ok r => writeReg r v (s.setReply .nothing)
    | .error e => .refused e
  | .writeOctet b i v => writeOctet b i v (s.setReply .nothing)
  | .readOctet b i => readOctet b i s
  | .other => .refused .outsideContract

/-- R30, R115: one input. -/
def perform (i : Input) (s : State) : Result :=
  match i with
  | .host a => hostAction a s
  | .reset => .next s.takeReset

/-- What stands in the state when an input faults: a `CMD` write has stored its word (R15), nothing else has happened
(R44; DEDUCED, notes/assumptions/8.md). -/
def beforeFault (i : Input) (s : State) : State :=
  match i with
  | .host (.writeReg o w v) =>
    match resolveReg o w with
    | .ok .cmd => s.setCmd v
    | _ => s
  | _ => s

/-- R24, R34, R44: the state after an input, a fault and a refusal recorded in the sticky marks (DEDUCED,
notes/assumptions/7.md). -/
def settle (i : Input) (s : State) : State :=
  match perform i s with
  | .next t => t
  | .fault _ => (beforeFault i s).setFaultMark true
  | .refused _ => s.setRefusedMark true

/-- R24, R109: no fault and no refusal recorded. -/
abbrev State.clean (s : State) : Prop := s.faultMark = false ∧ s.refusedMark = false

/-- The state after a sequence of inputs, recorded faults and refusals and all; R109: it is the end of a successful run
only if it is `clean`. -/
def settleAll : List Input → State → State
  | [], s => s
  | i :: r, s => settleAll r (settle i s)

end Sys2Proof.Machine
end

