-- ==== Sys2Proof/Machine/Step.lean ====
section
/-! DEFINITION. One step: the next pending input, or idling where there is none. -/

namespace Sys2Proof.Machine

/-- R9, R30, R41: the block takes the host's actions one at a time, in program order. With none pending it idles
(R116, R110; DESIGN CHOICE, notes/assumptions/4.md). -/
def step (s : State) : Host.Outcome State Fault Refusal :=
  match s.pending with
  | [] => .next s
  | i :: rest => perform i (s.setPending rest)

/-- A step with faults and refusals recorded in the sticky marks (R24). -/
def stickyStep (s : State) : State :=
  match s.pending with
  | [] => s
  | i :: rest => settle i (s.setPending rest)

/-- The state in which the host's next action is the write of a command word to `CMD` (R15). -/
def State.withFetchWord (s : State) (nbits w : Nat) : State :=
  s.setPending (.host (.writeReg 0x00 .word (tableWord nbits w)) :: s.pending)

end Sys2Proof.Machine
end

