-- ==== Sys2Proof/Machine/Assembler.lean ====
section
/-! DEFINITION. Host programs: the lines of R53 and the pseudo-instructions of R54, how each is written, and the host
actions each stands for. The block sees the actions only (notes/assumptions/14.md). -/

namespace Sys2Proof.Machine

/-- A line of a host program (R53, R54). -/
inductive Line where
  | encode
  | decode (skip : Nat)
  | checksum
  | wr (r : Reg) (v : Word)
  | rd (r : Reg)
  | wb (b : Buf) (a : Nat) (v : Byte)
  | rb (b : Buf) (a : Nat)
  | comment (text : String)
  | decodePlain
  | loadPay (octets : List Byte)
  | loadWire (octets : List Byte)
  | hdr (f : Fields)
  | defHdr
  | relayTx
  | relayRx
  deriving DecidableEq, Repr

/-- R53: `WR reg, v`. -/
def lineWrite (r : Reg) (v : Word) : HostAction := .writeReg (regOffset r) .word v

/-- R53: the `CMD` write that issues a command. -/
def lineIssue (i : Instr) : HostAction := lineWrite .cmd (Sys2Proof.encode i)

/-- R54: `WB b[a], …` for consecutive indices. -/
def lineOctets (b : Buf) (a : Nat) : List Byte → List HostAction
  | [] => []
  | v :: r => .writeOctet b a v :: lineOctets b (a + 1) r

/-- R54: `HDR`, ten writes in index order. -/
def lineHeader (f : Fields) : List HostAction :=
  ([.cp, .kp, .sp, .res0, .ver, .proto, .csum, .res1, .key, .seq] : List FieldIndex).map fun i =>
    lineWrite (.field i) (f.get i)

/-- R53, R54: the actions a line stands for. -/
def Line.actions : Line → List HostAction
  | .encode => [lineIssue .encode]
  | .decode skip => [lineIssue (.decode skip)]
  | .checksum => [lineIssue .checksum]
  | .wr r v => [lineWrite r v]
  | .rd r => [.readReg (regOffset r) .word]
  | .wb b a v => [.writeOctet b a v]
  | .rb b a => [.readOctet b a]
  | .comment _ => []
  | .decodePlain => [lineIssue (.decode 0)]
  | .loadPay p => lineOctets .pay 0 p ++ [lineWrite .payLen (BitVec.ofNat 32 p.length)]
  | .loadWire p => lineOctets .wire 0 p ++ [lineWrite .wireLen (BitVec.ofNat 32 p.length)]
  | .hdr f => lineHeader f
  | .defHdr => lineHeader Fields.reset
  | .relayTx => lineHeader Fields.reset ++ [lineIssue .encode]
  | .relayRx => [lineIssue (.decode 20)]

/-! ### The written form -/

/-- R18: the name of a field register. -/
def fieldName : FieldIndex → String
  | .cp => "F_CP"
  | .kp => "F_KP"
  | .sp => "F_SP"
  | .res0 => "F_RES0"
  | .ver => "F_VER"
  | .proto => "F_PROTO"
  | .csum => "F_CSUM"
  | .res1 => "F_RES1"
  | .key => "F_KEY"
  | .seq => "F_SEQ"

/-- R31: the name of a register. -/
def regName : Reg → String
  | .cmd => "CMD"
  | .status => "STATUS"
  | .csumResult => "CSUM_RESULT"
  | .wireLen => "WIRE_LEN"
  | .payLen => "PAY_LEN"
  | .field i => fieldName i

/-- R53: the name of a buffer. -/
def bufName : Buf → String
  | .wire => "WIRE"
  | .pay => "PAY"

/-- Numbers in decimal, separated as R53 and R54 separate operands. -/
def numbers (ns : List Nat) : String := String.intercalate ", " (ns.map Nat.repr)

/-- R53, R54: how a line is written. Numbers are in decimal, which R53 allows. -/
def Line.text : Line → String
  | .encode => "ENCODE"
  | .decode skip => "DECODE " ++ Nat.repr skip
  | .checksum => "CHECKSUM"
  | .wr r v => "WR " ++ regName r ++ ", " ++ Nat.repr v.toNat
  | .rd r => "RD " ++ regName r
  | .wb b a v => "WB " ++ bufName b ++ "[" ++ Nat.repr a ++ "], " ++ Nat.repr v.toNat
  | .rb b a => "RB " ++ bufName b ++ "[" ++ Nat.repr a ++ "]"
  | .comment text => "; " ++ text
  | .decodePlain => "DECODE"
  | .loadPay p => "LOADPAY " ++ numbers (p.map BitVec.toNat)
  | .loadWire p => "LOADWIRE " ++ numbers (p.map BitVec.toNat)
  | .hdr f =>
    "HDR " ++ numbers
      (([.cp, .kp, .sp, .res0, .ver, .proto, .csum, .res1, .key, .seq] : List FieldIndex).map fun i => (f.get i).toNat)
  | .defHdr => "DEFHDR"
  | .relayTx => "RELAY_TX"
  | .relayRx => "RELAY_RX"

/-- A host program as inputs of the block. -/
def assemble (lines : List Line) : List Input := (lines.flatMap Line.actions).map Input.host

end Sys2Proof.Machine
end

