-- ==== Sys2Proof/Safety.lean ====
section
/-! DEFINITION. What counts as a safe run: the host's duties (R47, R118), and the invariant every step keeps. -/

namespace Sys2Proof.Machine

/-- Every octet of `m[a..a+n)` carries a written mark (R23, R42). -/
abbrev octetsWritten (m : Memory) (a n : Nat) : Prop := ∀ j < n, (m.read (a + j)).isSome = true

/-- R42, R47, R118: the host has written every octet the command reads. -/
abbrev commandReady (i : Instr) (s : State) : Prop :=
  match i with
  | .encode => octetsWritten s.pay 0 s.payLen.toNat
  | .decode skip => octetsWritten s.wire skip (remaining skip s)
  | .checksum => octetsWritten s.pay 0 s.payLen.toNat

/-- R71: what `ENCODE` asks of the field registers, written out. -/
abbrev encodeFieldsLegal (f : Fields) : Prop :=
  f.cp.toNat ≤ 1 ∧ f.kp.toNat ≤ 1 ∧ f.sp.toNat ≤ 1 ∧ f.res0.toNat ≤ 0x1FF ∧ f.ver.toNat ≤ 7 ∧ f.proto.toNat ≤ 0xFFFF ∧
    (f.cp = 1#32 → f.res1.toNat ≤ 0xFFFF)

/-- R96: what `CHECKSUM` asks of the field registers, written out. -/
abbrev checksumFieldsLegal (f : Fields) : Prop :=
  f.cp.toNat ≤ 1 ∧ f.kp.toNat ≤ 1 ∧ f.sp.toNat ≤ 1 ∧ f.res0.toNat ≤ 0x1FF ∧ f.ver.toNat ≤ 7 ∧ f.proto.toNat ≤ 0xFFFF ∧
    f.res1.toNat ≤ 0xFFFF

/-- R34, R47: the host's duties on one action other than the issue of a command. -/
abbrev actionInContract (a : HostAction) (s : State) : Prop :=
  match a with
  | .readReg o w => w = .word ∧ (regAt o).isSome = true
  | .writeReg o w v =>
    w = .word ∧ (regAt o).isSome = true ∧ (o = 0x0C ∨ o = 0x10 → v.toNat ≤ s.cfg.bufMax)
  | .writeOctet _ a _ => a < s.cfg.bufMax
  | .readOctet b a => a < s.cfg.bufMax ∧ ((s.buf b).read a).isSome = true
  | .other => False

/-- R12 to R14: `STATUS` holds an outcome the block reports, with its `INFO`, and zeros between them. -/
def statusLegal (w : Word) : Bool :=
  statusReserved w == 0 &&
    ([.ok, .invalidFieldWidth, .truncatedHeader, .illegalCommand, .capacityExceeded] : List Code).any fun c =>
      (statusCode w).toNat == codeNumber c && infoFits c (statusInfo w).toNat

/-- Every listed octet of a buffer has an index below `n` (R22). -/
abbrev Memory.below (m : Memory) (n : Nat) : Prop := ∀ x ∈ m, x.1 < n

/-- What holds in every state the block can be in: the bound on `BUF_MAX` (R5), lengths within the buffers (R17), the
buffers in canonical form and inside their index range (R22), a legal `STATUS` (R12 to R14), a zero upper half of
`CSUM_RESULT` (R16). -/
abbrev State.Inv (s : State) : Prop :=
  s.cfg.wf ∧ s.wireLen.toNat ≤ s.cfg.bufMax ∧ s.payLen.toNat ≤ s.cfg.bufMax ∧ s.wire.wf ∧ s.pay.wf ∧
    s.wire.below s.cfg.bufMax ∧ s.pay.below s.cfg.bufMax ∧ statusLegal s.status = true ∧ highHalf s.csumResult = 0

end Sys2Proof.Machine
end

