-- ==== Sys2Proof/Certificates/Slice0/Obligations.lean ====
section
/-! DEFINITION. The statements for the provers. Register values and `STATUS` words are written out as numbers: a `STATUS`
of `info * 0x10000 + code` is that code with that `INFO` (R12). -/

open Sys2Proof Sys2Proof.Machine

/-! ### Command words -/

/-- Words written out bit by bit from R50 and R51 (95_test_vectors.md Part 2 A: A1 to A5). -/
def Obligations.CommandWordsDecodeAsWrittenOut : Prop :=
  decodeWord 0b00000000000000000000000000000001 = .command .encode ∧
    decodeWord 0b00000000000000000000000000000010 = .command (.decode 0) ∧
    decodeWord 0b00000000000101000000000000000010 = .command (.decode 20) ∧
    decodeWord 0b11111111111111110000000000000010 = .command (.decode 65535) ∧
    decodeWord 0b00000000000000000000000000000011 = .command .checksum

/-- R50, R51: decoding an encoded well-formed command gives it back, and every word that decodes to a command is that
command's own word. -/
def Obligations.DecodeAndEncodeAgree : Prop :=
  (∀ i : Instr, i.wf → decodeWord (encode i) = .command i) ∧
    ∀ (w : Word) (i : Instr), decodeWord w = .command i → i.wf ∧ encode i = w

/-- R51: the three rows of match and mask, and that a word spells a command iff exactly one row matches it. -/
def Obligations.WordSpellsACommandIffOneRowMatches : Prop :=
  ∀ w : Word,
    (decodeWord w = .command .encode ↔ w &&& 0xFFFFFFFF = 0x00000001) ∧
      ((∃ k, decodeWord w = .command (.decode k)) ↔ w &&& 0x0000FFFF = 0x00000002) ∧
      (∀ k, decodeWord w = .command (.decode k) → k = w.toNat / 0x10000) ∧
      (decodeWord w = .command .checksum ↔ w &&& 0xFFFFFFFF = 0x00000003) ∧
      ((∃ i, decodeWord w = .command i) ↔
        ∃! r : OpcodeRow,
          r ∈ ([⟨0x00000001, 0xFFFFFFFF⟩, ⟨0x00000002, 0x0000FFFF⟩, ⟨0x00000003, 0xFFFFFFFF⟩] : List OpcodeRow) ∧
            r.Matches w)

/-- R52: which words are illegal, and that writing one to `CMD` stores it and finishes with `IllegalCommand(0)`, with no
other change of the block's state. Of `reply`, the model's own field (notes/assumptions/5.md), nothing is said. -/
def Obligations.IllegalWordsFinishWithIllegalCommand : Prop :=
  ∀ (w : Word) (s : State),
    ((∃ why, decodeWord w = .illegal why) ↔
        (w.toNat % 0x100 = 0 ∨ 4 ≤ w.toNat % 0x100) ∨ w.toNat / 0x100 % 0x100 ≠ 0 ∨
          (w.toNat / 0x10000 ≠ 0 ∧ (w.toNat % 0x100 = 1 ∨ w.toNat % 0x100 = 3))) ∧
      ((∃ why, decodeWord w = .illegal why) →
        ∃ r : Reply,
          hostAction (.writeReg 0x00 .word w) s = .next { s with cmd := w, status := 0x00000003, reply := r })

/-! ### The step -/

/-- R9, R15, R33, R41 with the queue of notes/assumptions/3.md, the idle step of 4.md and the cleared `reply` of 5.md, all
three the model's choice: a step takes the next input; a `CMD` write of a word that decodes to `i` is `exec i` with the
word in `CMD`; with nothing pending the state stays. -/
def Obligations.StepRunsTheDecodedCommand : Prop :=
  (∀ (s : State) (w : Word) (rest : List Input) (i : Instr),
      s.pending = .host (.writeReg 0x00 .word w) :: rest → decodeWord w = .command i →
        step s = exec i { s with pending := rest, reply := .nothing, cmd := w }) ∧
    (∀ (s : State) (j : Input) (rest : List Input),
      s.pending = j :: rest → step s = perform j { s with pending := rest }) ∧
    ∀ s : State, s.pending = [] → step s = .next s

/-- The fixed interface of the model: the step after `withFetchWord` runs the command that `decodeTableWord` reads. The
queue (notes/assumptions/3.md) and the cleared `reply` (notes/assumptions/5.md) are the model's choice. -/
def Obligations.FetchedTableWordRuns : Prop :=
  ∀ (s : State) (w : Nat) (i : Instr),
    decodeTableWord 32 w = some i →
      step (s.withFetchWord 32 w) = exec i { s with cmd := BitVec.ofNat 32 w, reply := .nothing }

/-! ### Registers and octets of the host port -/

/-- R31, R32: a read at each mapped offset returns the register's value and changes nothing; the value stands in
`reply` (notes/assumptions/5.md). -/
def Obligations.RegisterReadsReturnTheRegister : Prop :=
  ∀ s : State,
    hostAction (.readReg 0x00 .word) s = .next { s with reply := .word s.cmd } ∧
      hostAction (.readReg 0x04 .word) s = .next { s with reply := .word s.status } ∧
      hostAction (.readReg 0x08 .word) s = .next { s with reply := .word s.csumResult } ∧
      hostAction (.readReg 0x0C .word) s = .next { s with reply := .word s.wireLen } ∧
      hostAction (.readReg 0x10 .word) s = .next { s with reply := .word s.payLen } ∧
      hostAction (.readReg 0x20 .word) s = .next { s with reply := .word s.f.cp } ∧
      hostAction (.readReg 0x24 .word) s = .next { s with reply := .word s.f.kp } ∧
      hostAction (.readReg 0x28 .word) s = .next { s with reply := .word s.f.sp } ∧
      hostAction (.readReg 0x2C .word) s = .next { s with reply := .word s.f.res0 } ∧
      hostAction (.readReg 0x30 .word) s = .next { s with reply := .word s.f.ver } ∧
      hostAction (.readReg 0x34 .word) s = .next { s with reply := .word s.f.proto } ∧
      hostAction (.readReg 0x38 .word) s = .next { s with reply := .word s.f.csum } ∧
      hostAction (.readReg 0x3C .word) s = .next { s with reply := .word s.f.res1 } ∧
      hostAction (.readReg 0x40 .word) s = .next { s with reply := .word s.f.key } ∧
      hostAction (.readReg 0x44 .word) s = .next { s with reply := .word s.f.seq }

/-- R33: what a register write does at each mapped offset. That it clears `reply`, the model's own field, is the model's
choice (notes/assumptions/5.md). -/
def Obligations.RegisterWritesSetTheRegister : Prop :=
  ∀ (s : State) (v : Word),
    (hostAction (.writeReg 0x00 .word v) s =
        match decodeWord v with
        | .command i => exec i { s with reply := .nothing, cmd := v }
        | .illegal _ => .next { s with reply := .nothing, cmd := v, status := 0x00000003 }) ∧
      hostAction (.writeReg 0x04 .word v) s = .next { s with reply := .nothing } ∧
      hostAction (.writeReg 0x08 .word v) s = .next { s with reply := .nothing } ∧
      (v.toNat ≤ s.cfg.bufMax →
        hostAction (.writeReg 0x0C .word v) s = .next { s with reply := .nothing, wireLen := v } ∧
          hostAction (.writeReg 0x10 .word v) s = .next { s with reply := .nothing, payLen := v }) ∧
      (s.cfg.bufMax < v.toNat →
        (∃ e, hostAction (.writeReg 0x0C .word v) s = .refused e) ∧
          ∃ e, hostAction (.writeReg 0x10 .word v) s = .refused e) ∧
      hostAction (.writeReg 0x20 .word v) s = .next { s with reply := .nothing, f := { s.f with cp := v } } ∧
      hostAction (.writeReg 0x24 .word v) s = .next { s with reply := .nothing, f := { s.f with kp := v } } ∧
      hostAction (.writeReg 0x28 .word v) s = .next { s with reply := .nothing, f := { s.f with sp := v } } ∧
      hostAction (.writeReg 0x2C .word v) s = .next { s with reply := .nothing, f := { s.f with res0 := v } } ∧
      hostAction (.writeReg 0x30 .word v) s = .next { s with reply := .nothing, f := { s.f with ver := v } } ∧
      hostAction (.writeReg 0x34 .word v) s = .next { s with reply := .nothing, f := { s.f with proto := v } } ∧
      hostAction (.writeReg 0x38 .word v) s = .next { s with reply := .nothing, f := { s.f with csum := v } } ∧
      hostAction (.writeReg 0x3C .word v) s = .next { s with reply := .nothing, f := { s.f with res1 := v } } ∧
      hostAction (.writeReg 0x40 .word v) s = .next { s with reply := .nothing, f := { s.f with key := v } } ∧
      hostAction (.writeReg 0x44 .word v) s = .next { s with reply := .nothing, f := { s.f with seq := v } }

/-- R34, R47: the refused actions, any action outside R47's table (`other`) among them, and that a refusal sets the
sticky mark and changes nothing else (notes/assumptions/7.md). -/
def Obligations.ActionsOutsideTheContractAreRefused : Prop :=
  (∀ (s : State) (o : Nat) (w : Width) (v : Word),
      w ≠ .word ∨ o % 4 ≠ 0 ∨ 0x100 ≤ o ∨ o = 0x14 ∨ o = 0x18 ∨ o = 0x1C ∨ 0x48 ≤ o →
        (∃ e, hostAction (.readReg o w) s = .refused e) ∧ ∃ e, hostAction (.writeReg o w v) s = .refused e) ∧
    (∀ (s : State) (v : Word), s.cfg.bufMax < v.toNat →
      (∃ e, hostAction (.writeReg 0x0C .word v) s = .refused e) ∧
        ∃ e, hostAction (.writeReg 0x10 .word v) s = .refused e) ∧
    (∀ (s : State) (b : Buf) (a : Nat) (v : Byte), s.cfg.bufMax ≤ a →
      (∃ e, hostAction (.writeOctet b a v) s = .refused e) ∧ ∃ e, hostAction (.readOctet b a) s = .refused e) ∧
    (∀ s : State, ∃ e, hostAction .other s = .refused e) ∧
    ∀ (s : State) (a : HostAction) (e : Refusal), hostAction a s = .refused e →
      settle (.host a) s = { s with refusedMark := true }

/-- R35: octet writes and reads. `reply` is the model's own field (notes/assumptions/5.md). -/
def Obligations.OctetAccessesReadAndWriteOneOctet : Prop :=
  ∀ (s : State) (a : Nat), a < s.cfg.bufMax →
    (∀ v : Byte,
        ∃ m : Memory, hostAction (.writeOctet .wire a v) s = .next { s with wire := m, reply := .nothing } ∧
          ∀ c, m.read c = if c = a then some v else s.wire.read c) ∧
      (∀ v : Byte,
        ∃ m : Memory, hostAction (.writeOctet .pay a v) s = .next { s with pay := m, reply := .nothing } ∧
          ∀ c, m.read c = if c = a then some v else s.pay.read c) ∧
      ∀ b : Buf,
        (∀ v, (s.buf b).read a = some v → hostAction (.readOctet b a) s = .next { s with reply := .octet v }) ∧
          ((s.buf b).read a = none → hostAction (.readOctet b a) s = .fault .unwrittenByte)

/-- R24: what sets the sticky marks, and that nothing clears them, reset among the rest. -/
def Obligations.StickyMarksAreNeverCleared : Prop :=
  ∀ (s : State) (i : Input),
    ((∃ e, perform i s = .fault e) → (settle i s).faultMark = true) ∧
      ((∃ e, perform i s = .refused e) → (settle i s).refusedMark = true) ∧
      (s.faultMark = true → (settle i s).faultMark = true) ∧
      (s.refusedMark = true → (settle i s).refusedMark = true) ∧
      ∀ t, perform i s = .next t → settle i s = t ∧ t.faultMark = s.faultMark ∧ t.refusedMark = s.refusedMark

/-- R42, R44: when a command meets an unwritten octet of its read range, after the checks that come before the read. -/
def Obligations.CommandsFaultOnUnwrittenOctets : Prop :=
  (∀ s : State, encodeFieldsLegal s.f →
      4 + 4 * s.f.cp.toNat + 4 * s.f.kp.toNat + 4 * s.f.sp.toNat + s.payLen.toNat ≤ s.cfg.bufMax →
        (∃ j < s.payLen.toNat, s.pay.read j = none) → exec .encode s = .fault .unwrittenByte) ∧
    (∀ s : State, checksumFieldsLegal s.f →
      (∃ j < s.payLen.toNat, s.pay.read j = none) → exec .checksum s = .fault .unwrittenByte) ∧
    ∀ (s : State) (skip : Nat), skip + 4 ≤ s.wireLen.toNat →
      (s.wire.read skip = none ∨ s.wire.read (skip + 1) = none → exec (.decode skip) s = .fault .unwrittenByte) ∧
        ∀ hi lo : Byte, s.wire.read skip = some hi → s.wire.read (skip + 1) = some lo →
          skip + (4 + 4 * (hi.toNat / 0x80) + 4 * (hi.toNat / 0x20 % 2) + 4 * (hi.toNat / 0x10 % 2)) ≤
              s.wireLen.toNat →
            (∃ a, skip ≤ a ∧ a < s.wireLen.toNat ∧ s.wire.read a = none) →
              exec (.decode skip) s = .fault .unwrittenByte

/-- R44 with notes/assumptions/7.md and 8.md, the model's reading of "no further effect": a `CMD` write whose command
faults has stored its word (R15) and sets the fault mark; every other faulting input sets the fault mark; nothing else
changes. -/
def Obligations.FaultsLeaveTheStateMarked : Prop :=
  (∀ (s : State) (w : Word), (∃ e, perform (.host (.writeReg 0x00 .word w)) s = .fault e) →
      settle (.host (.writeReg 0x00 .word w)) s = { s with cmd := w, faultMark := true }) ∧
    ∀ (s : State) (i : Input), (∀ w : Word, i ≠ .host (.writeReg 0x00 .word w)) → (∃ e, perform i s = .fault e) →
      settle i s = { s with faultMark := true }

/-! ### Reset -/

/-- R116, R117 with the values of R12, R15 to R18: the state at power-on, whatever the parameters. -/
def Obligations.PowerOnStateHoldsTheResetValues : Prop :=
  ∀ c : Config,
    let s := State.resetWith c
    s.status = 0x00000000 ∧ s.cmd = 0x00000000 ∧ s.csumResult = 0x00000000 ∧ s.wireLen = 0 ∧ s.payLen = 0 ∧
      s.f = { cp := 0, kp := 0, sp := 0, res0 := 0, ver := 0, proto := 0x0800, csum := 0, res1 := 0, key := 0, seq := 0 } ∧
      (∀ (b : Buf) (a : Nat), (s.buf b).read a = none) ∧ s.faultMark = false ∧ s.refusedMark = false

/-- R115: the reset action, which clears no sticky mark. -/
def Obligations.ResetRestoresTheResetValues : Prop :=
  ∀ s : State, ∃ t,
    perform .reset s = .next t ∧
      t.status = 0x00000000 ∧ t.cmd = 0x00000000 ∧ t.csumResult = 0x00000000 ∧ t.wireLen = 0 ∧ t.payLen = 0 ∧
      t.f = { cp := 0, kp := 0, sp := 0, res0 := 0, ver := 0, proto := 0x0800, csum := 0, res1 := 0, key := 0, seq := 0 } ∧
      (∀ (b : Buf) (a : Nat), (t.buf b).read a = none) ∧
      t.faultMark = s.faultMark ∧ t.refusedMark = s.refusedMark

/-! ### ENCODE -/

/-- R70, R73: `ENCODE` completes on legal fields, a payload that is written and an image that fits, and then this is the
whole next state. -/
def Obligations.EncodeCompletesWithTheImage : Prop :=
  ∀ (s : State) (p : List Byte), encodeFieldsLegal s.f →
    4 + 4 * s.f.cp.toNat + 4 * s.f.kp.toNat + 4 * s.f.sp.toNat + s.payLen.toNat ≤ s.cfg.bufMax →
      memRead s.pay 0 s.payLen.toNat = some p →
        exec .encode s = .next
          { s with
            wire := memWrite s.wire 0
              (be16 (BitVec.ofNat 16 (s.f.cp.toNat * 0x8000 + s.f.kp.toNat * 0x2000 + s.f.sp.toNat * 0x1000 +
                  s.f.res0.toNat * 8 + s.f.ver.toNat)) ++
                be16 (BitVec.ofNat 16 s.f.proto.toNat) ++
                (if s.f.cp = 1#32 then be16 (checksum s.f p) ++ be16 (BitVec.ofNat 16 s.f.res1.toNat) else []) ++
                (if s.f.kp = 1#32 then be32 s.f.key else []) ++ (if s.f.sp = 1#32 then be32 s.f.seq else []) ++ p)
            wireLen :=
              BitVec.ofNat 32 (4 + 4 * s.f.cp.toNat + 4 * s.f.kp.toNat + 4 * s.f.sp.toNat + s.payLen.toNat)
            status := 0x00000000 }

/-- R36, R59 to R61: where each field of a written image stands in `WIRE`, big-endian, and how long the image is. The
checksum is that of the payload read (R73), whatever `F_CSUM` holds. -/
def Obligations.EncodeLaysTheFieldsOutInOrder : Prop :=
  ∀ s t : State, s.cfg.wf → exec .encode s = .next t → t.status = 0#32 →
    let atOctet (a v : Nat) : Prop := t.wire.read a = some (BitVec.ofNat 8 v)
    let key := 4 + 4 * s.f.cp.toNat
    let seq := 4 + 4 * s.f.cp.toNat + 4 * s.f.kp.toNat
    let h := 4 + 4 * s.f.cp.toNat + 4 * s.f.kp.toNat + 4 * s.f.sp.toNat
    atOctet 0 (s.f.cp.toNat * 0x80 + s.f.kp.toNat * 0x20 + s.f.sp.toNat * 0x10 + s.f.res0.toNat / 0x20) ∧
      atOctet 1 (s.f.res0.toNat % 0x20 * 8 + s.f.ver.toNat) ∧
      atOctet 2 (s.f.proto.toNat / 0x100) ∧ atOctet 3 (s.f.proto.toNat % 0x100) ∧
      (s.f.cp = 1#32 →
        (∃ p, memRead s.pay 0 s.payLen.toNat = some p ∧ atOctet 4 ((checksum s.f p).toNat / 0x100) ∧
          atOctet 5 ((checksum s.f p).toNat % 0x100)) ∧
        atOctet 6 (s.f.res1.toNat / 0x100) ∧ atOctet 7 (s.f.res1.toNat % 0x100)) ∧
      (s.f.kp = 1#32 →
        atOctet key (s.f.key.toNat / 0x1000000) ∧ atOctet (key + 1) (s.f.key.toNat / 0x10000 % 0x100) ∧
          atOctet (key + 2) (s.f.key.toNat / 0x100 % 0x100) ∧ atOctet (key + 3) (s.f.key.toNat % 0x100)) ∧
      (s.f.sp = 1#32 →
        atOctet seq (s.f.seq.toNat / 0x1000000) ∧ atOctet (seq + 1) (s.f.seq.toNat / 0x10000 % 0x100) ∧
          atOctet (seq + 2) (s.f.seq.toNat / 0x100 % 0x100) ∧ atOctet (seq + 3) (s.f.seq.toNat % 0x100)) ∧
      (∀ j < s.payLen.toNat, (s.pay.read j).isSome = true ∧ t.wire.read (h + j) = s.pay.read j) ∧
      t.wireLen.toNat = h + s.payLen.toNat

/-- R55, R56: word 0 from legal field values; bit 14 is always 0. -/
def Obligations.Word0PlacesTheFlagsAndFields : Prop :=
  ∀ f : Fields, encodeFieldsLegal f →
    (word0 f).toNat =
        (f.cp.toNat <<< 15) ||| (f.kp.toNat <<< 13) ||| (f.sp.toNat <<< 12) ||| (f.res0.toNat <<< 3) ||| f.ver.toNat ∧
      (word0 f).getLsbD 15 = decide (f.cp = 1#32) ∧ (word0 f).getLsbD 14 = false ∧
      (word0 f).getLsbD 13 = decide (f.kp = 1#32) ∧ (word0 f).getLsbD 12 = decide (f.sp = 1#32) ∧
      ((word0 f).extractLsb' 3 9).toNat = f.res0.toNat ∧ ((word0 f).extractLsb' 0 3).toNat = f.ver.toNat

/-- R71, R102 with the widths of R19 and the indices of R18: `ENCODE` checks `F[0]` to `F[5]` in order, then `F[7]` when
`F_CP = 1`; it ends with `InvalidFieldWidth` of the lowest that is too wide and writes `STATUS` only; and it reports
nothing of the kind when none of them is. -/
def Obligations.EncodeReportsTheLowestInvalidField : Prop :=
  ∀ s : State,
    let endsWith (w : Word) : Prop := exec .encode s = .next { s with status := w }
    (1 < s.f.cp.toNat → endsWith 0x00000001) ∧
      (s.f.cp.toNat ≤ 1 → 1 < s.f.kp.toNat → endsWith 0x00010001) ∧
      (s.f.cp.toNat ≤ 1 → s.f.kp.toNat ≤ 1 → 1 < s.f.sp.toNat → endsWith 0x00020001) ∧
      (s.f.cp.toNat ≤ 1 → s.f.kp.toNat ≤ 1 → s.f.sp.toNat ≤ 1 → 0x1FF < s.f.res0.toNat → endsWith 0x00030001) ∧
      (s.f.cp.toNat ≤ 1 → s.f.kp.toNat ≤ 1 → s.f.sp.toNat ≤ 1 → s.f.res0.toNat ≤ 0x1FF → 7 < s.f.ver.toNat →
        endsWith 0x00040001) ∧
      (s.f.cp.toNat ≤ 1 → s.f.kp.toNat ≤ 1 → s.f.sp.toNat ≤ 1 → s.f.res0.toNat ≤ 0x1FF → s.f.ver.toNat ≤ 7 →
        0xFFFF < s.f.proto.toNat → endsWith 0x00050001) ∧
      (s.f.cp = 1#32 → s.f.kp.toNat ≤ 1 → s.f.sp.toNat ≤ 1 → s.f.res0.toNat ≤ 0x1FF → s.f.ver.toNat ≤ 7 →
        s.f.proto.toNat ≤ 0xFFFF → 0xFFFF < s.f.res1.toNat → endsWith 0x00070001) ∧
      (s.f.cp.toNat ≤ 1 → s.f.kp.toNat ≤ 1 → s.f.sp.toNat ≤ 1 → s.f.res0.toNat ≤ 0x1FF → s.f.ver.toNat ≤ 7 →
        s.f.proto.toNat ≤ 0xFFFF → (s.f.cp = 1#32 → s.f.res1.toNat ≤ 0xFFFF) →
          ∀ t, exec .encode s = .next t → (statusCode t.status).toNat ≠ 1)

/-- R72: `CapacityExceeded(0)` when the image does not fit, decided before the payload is read; it cannot occur with 16
octets to spare. -/
def Obligations.EncodeReportsExceededCapacity : Prop :=
  ∀ s : State, encodeFieldsLegal s.f →
    (s.cfg.bufMax < 4 + 4 * s.f.cp.toNat + 4 * s.f.kp.toNat + 4 * s.f.sp.toNat + s.payLen.toNat →
        exec .encode s = .next { s with status := 0x00000004 }) ∧
      (s.payLen.toNat + 16 ≤ s.cfg.bufMax → ∀ t, exec .encode s = .next t → (statusCode t.status).toNat ≠ 4)

/-- R43, R74: the frame of `ENCODE`. It stores to `WIRE[0..L)` with `L = encodeLength s`, and only when it ends with
`OK`. -/
def Obligations.EncodeLeavesTheRestUnchanged : Prop :=
  ∀ s t : State, exec .encode s = .next t →
    t.cfg = s.cfg ∧ t.cmd = s.cmd ∧ t.csumResult = s.csumResult ∧ t.payLen = s.payLen ∧ t.f = s.f ∧
      (∀ a, t.pay.read a = s.pay.read a) ∧ t.faultMark = s.faultMark ∧ t.refusedMark = s.refusedMark ∧
      t.pending = s.pending ∧ t.reply = s.reply ∧
      (∀ a, encodeLength s ≤ a → t.wire.read a = s.wire.read a) ∧
      (t.status ≠ 0#32 → t.wireLen = s.wireLen ∧ ∀ a, t.wire.read a = s.wire.read a)

/-- R20, R62, R70: `ENCODE` reads neither `F_CSUM` nor the register of an absent field. -/
def Obligations.EncodeIgnoresAbsentFields : Prop :=
  ∀ (s : State) (g : Fields),
    g.cp = s.f.cp → g.kp = s.f.kp → g.sp = s.f.sp → g.res0 = s.f.res0 → g.ver = s.f.ver → g.proto = s.f.proto →
      (s.f.cp = 1#32 → g.res1 = s.f.res1) → (s.f.kp = 1#32 → g.key = s.f.key) → (s.f.sp = 1#32 → g.seq = s.f.seq) →
        (∀ t, exec .encode s = .next t → exec .encode { s with f := g } = .next { t with f := g }) ∧
          ∀ e, exec .encode s = .fault e → exec .encode { s with f := g } = .fault e

/-! ### DECODE -/

/-- R57, R80, R83, R84: `DECODE` completes on an image that is written and as long as its flags say, and then this is the
whole next state. `w` is word 0 as a number; its bits 15, 13 and 12 are the flags. -/
def Obligations.DecodeCompletesWithTheHeader : Prop :=
  ∀ (s : State) (skip : Nat) (b : List Byte),
    memRead s.wire skip (s.wireLen.toNat - skip) = some b → 4 ≤ b.length →
      let w := (w16 b 0).toNat
      let c := w / 0x8000
      let k := w / 0x2000 % 2
      let q := w / 0x1000 % 2
      let h := 4 + 4 * c + 4 * k + 4 * q
      h ≤ b.length →
        exec (.decode skip) s = .next
          { s with
            f :=
              { cp := BitVec.ofNat 32 c
                kp := BitVec.ofNat 32 k
                sp := BitVec.ofNat 32 q
                res0 := BitVec.ofNat 32 (w / 8 % 0x200)
                ver := BitVec.ofNat 32 (w % 8)
                proto := BitVec.ofNat 32 (w16 b 2).toNat
                csum := if c = 1 then BitVec.ofNat 32 (w16 b 4).toNat else 0
                res1 := if c = 1 then BitVec.ofNat 32 (w16 b 6).toNat else 0
                key :=
                  if k = 1 then
                    BitVec.ofNat 32 ((w16 b (4 + 4 * c)).toNat * 0x10000 + (w16 b (4 + 4 * c + 2)).toNat)
                  else 0
                seq :=
                  if q = 1 then
                    BitVec.ofNat 32
                      ((w16 b (4 + 4 * c + 4 * k)).toNat * 0x10000 + (w16 b (4 + 4 * c + 4 * k + 2)).toNat)
                  else 0 }
            pay := memWrite s.pay 0 (b.drop h)
            payLen := BitVec.ofNat 32 (b.length - h)
            status := 0x00000000 }

/-- R82, R102: the two truncation checks, in their order; only `STATUS` is written. -/
def Obligations.DecodeReportsTruncatedHeaders : Prop :=
  ∀ (s : State) (skip : Nat),
    (s.wireLen.toNat < skip + 4 → exec (.decode skip) s = .next { s with status := 0x00040002 }) ∧
      ∀ hi lo : Byte, skip + 4 ≤ s.wireLen.toNat → s.wire.read skip = some hi → s.wire.read (skip + 1) = some lo →
        let h := 4 + 4 * (hi.toNat / 0x80) + 4 * (hi.toNat / 0x20 % 2) + 4 * (hi.toNat / 0x10 % 2)
        s.wireLen.toNat < skip + h →
          exec (.decode skip) s = .next { s with status := BitVec.ofNat 32 (h * 0x10000 + 2) }

/-- R81: `DECODE SKIP` reads nothing of `WIRE` but `WIRE[SKIP..WIRE_LEN)`; it does what the plain decode does on that
remainder; and a `SKIP` beyond `WIRE_LEN` is `TruncatedHeader(4)`. -/
def Obligations.DecodeSkipsWithoutReading : Prop :=
  ∀ (s : State) (skip : Nat) (m : Memory),
    ((∀ a, skip ≤ a → a < s.wireLen.toNat → m.read a = s.wire.read a) →
        (∀ t, exec (.decode skip) s = .next t → exec (.decode skip) { s with wire := m } = .next { t with wire := m }) ∧
          ∀ e, exec (.decode skip) s = .fault e → exec (.decode skip) { s with wire := m } = .fault e) ∧
      ((∀ j, skip + j < s.wireLen.toNat → m.read j = s.wire.read (skip + j)) →
        ∀ n : Word, n.toNat = s.wireLen.toNat - skip →
          (∀ t, exec (.decode skip) s = .next t →
              exec (.decode 0) { s with wire := m, wireLen := n } = .next { t with wire := m, wireLen := n }) ∧
            ∀ e, exec (.decode skip) s = .fault e → exec (.decode 0) { s with wire := m, wireLen := n } = .fault e) ∧
      (s.wireLen.toNat < skip → exec (.decode skip) s = .next { s with status := 0x00040002 })

/-- R43, R102: the frame of `DECODE`. It stores to `PAY[0..n)` with `n` the octets of the image behind the header
(`decodedPayload`), which is the new `PAY_LEN`, and only when it ends with `OK`. -/
def Obligations.DecodeLeavesTheRestUnchanged : Prop :=
  ∀ (s t : State) (skip : Nat), exec (.decode skip) s = .next t →
    t.cfg = s.cfg ∧ t.cmd = s.cmd ∧ t.csumResult = s.csumResult ∧ t.wireLen = s.wireLen ∧
      (∀ a, t.wire.read a = s.wire.read a) ∧ t.faultMark = s.faultMark ∧ t.refusedMark = s.refusedMark ∧
      t.pending = s.pending ∧ t.reply = s.reply ∧
      (t.status = 0#32 →
        ∃ b, memRead s.wire skip (remaining skip s) = some b ∧ t.payLen.toNat = (decodedPayload b).length ∧
          ∀ a, (decodedPayload b).length ≤ a → t.pay.read a = s.pay.read a) ∧
      (t.status ≠ 0#32 → t.f = s.f ∧ t.payLen = s.payLen ∧ ∀ a, t.pay.read a = s.pay.read a)

/-- R83: every value `DECODE` writes passes its check, so `ENCODE` of the decoded header reports no invalid field. -/
def Obligations.DecodedFieldsAreLegal : Prop :=
  ∀ (s t : State) (skip : Nat), exec (.decode skip) s = .next t → t.status = 0#32 →
    (∀ i : FieldIndex, (t.f.get i).toNat ≤ fieldMax i) ∧
      ∀ u, exec .encode t = .next u → (statusCode u.status).toNat ≠ 1

/-- R58: bit 14 of word 0 is written as 0, and ignored on receipt. -/
def Obligations.Bit14IsIgnored : Prop :=
  (∀ f : Fields, encodeFieldsLegal f → (word0 f).getLsbD 14 = false) ∧
    ∀ (s : State) (skip : Nat) (b : Byte), s.wire.read skip = some b →
      let m := s.wire.write skip (b ^^^ 0x40)
      (∀ t, exec (.decode skip) s = .next t → exec (.decode skip) { s with wire := m } = .next { t with wire := m }) ∧
        ∀ e, exec (.decode skip) s = .fault e → exec (.decode skip) { s with wire := m } = .fault e

/-! ### CHECKSUM and the checksum function -/

/-- R93, R96: `CHECKSUM` completes on legal fields and a payload that is written, and then this is the whole next
state. -/
def Obligations.ChecksumCompletesWithTheResult : Prop :=
  ∀ (s : State) (p : List Byte), checksumFieldsLegal s.f → memRead s.pay 0 s.payLen.toNat = some p →
    exec .checksum s = .next
      { s with
        csumResult := BitVec.ofNat 32 (0xFFFF - fold (wordSum (checksumWords s.f p)))
        status := 0x00000000 }

/-- R96, R102 with the widths of R19 and the indices of R18: `CHECKSUM` checks `F[0]` to `F[5]` in order, then `F[7]`,
whatever `F_CP` is; it ends with `InvalidFieldWidth` of the lowest that is too wide and writes `STATUS` only; and it
reports nothing of the kind when none of them is. -/
def Obligations.ChecksumReportsTheLowestInvalidField : Prop :=
  ∀ s : State,
    let endsWith (w : Word) : Prop := exec .checksum s = .next { s with status := w }
    (1 < s.f.cp.toNat → endsWith 0x00000001) ∧
      (s.f.cp.toNat ≤ 1 → 1 < s.f.kp.toNat → endsWith 0x00010001) ∧
      (s.f.cp.toNat ≤ 1 → s.f.kp.toNat ≤ 1 → 1 < s.f.sp.toNat → endsWith 0x00020001) ∧
      (s.f.cp.toNat ≤ 1 → s.f.kp.toNat ≤ 1 → s.f.sp.toNat ≤ 1 → 0x1FF < s.f.res0.toNat → endsWith 0x00030001) ∧
      (s.f.cp.toNat ≤ 1 → s.f.kp.toNat ≤ 1 → s.f.sp.toNat ≤ 1 → s.f.res0.toNat ≤ 0x1FF → 7 < s.f.ver.toNat →
        endsWith 0x00040001) ∧
      (s.f.cp.toNat ≤ 1 → s.f.kp.toNat ≤ 1 → s.f.sp.toNat ≤ 1 → s.f.res0.toNat ≤ 0x1FF → s.f.ver.toNat ≤ 7 →
        0xFFFF < s.f.proto.toNat → endsWith 0x00050001) ∧
      (s.f.cp.toNat ≤ 1 → s.f.kp.toNat ≤ 1 → s.f.sp.toNat ≤ 1 → s.f.res0.toNat ≤ 0x1FF → s.f.ver.toNat ≤ 7 →
        s.f.proto.toNat ≤ 0xFFFF → 0xFFFF < s.f.res1.toNat → endsWith 0x00070001) ∧
      (s.f.cp.toNat ≤ 1 → s.f.kp.toNat ≤ 1 → s.f.sp.toNat ≤ 1 → s.f.res0.toNat ≤ 0x1FF → s.f.ver.toNat ≤ 7 →
        s.f.proto.toNat ≤ 0xFFFF → s.f.res1.toNat ≤ 0xFFFF →
          ∀ t, exec .checksum s = .next t → (statusCode t.status).toNat ≠ 1)

/-- R16, R96: the frame of `CHECKSUM`. It stores nothing to a buffer. -/
def Obligations.ChecksumLeavesTheRestUnchanged : Prop :=
  ∀ s t : State, exec .checksum s = .next t →
    t.cfg = s.cfg ∧ t.cmd = s.cmd ∧ t.wireLen = s.wireLen ∧ t.payLen = s.payLen ∧ t.f = s.f ∧
      (∀ a, t.wire.read a = s.wire.read a) ∧ (∀ a, t.pay.read a = s.pay.read a) ∧ t.faultMark = s.faultMark ∧
      t.refusedMark = s.refusedMark ∧ t.pending = s.pending ∧ t.reply = s.reply ∧
      (t.status ≠ 0#32 → t.csumResult = s.csumResult)

/-- R90: the word list, each word as a number. -/
def Obligations.ChecksumSumsTheHeaderWords : Prop :=
  ∀ (f : Fields) (p : List Byte), checksumFieldsLegal f →
    (checksumWords f p).map BitVec.toNat =
      [f.cp.toNat * 0x8000 + f.kp.toNat * 0x2000 + f.sp.toNat * 0x1000 + f.res0.toNat * 8 + f.ver.toNat,
        f.proto.toNat, 0, f.res1.toNat] ++
        (if f.kp = 1#32 then [f.key.toNat / 0x10000, f.key.toNat % 0x10000] else []) ++
        (if f.sp = 1#32 then [f.seq.toNat / 0x10000, f.seq.toNat % 0x10000] else []) ++
        (payloadWords p).map BitVec.toNat

/-- R91: the payload words, an odd last octet paired with a zero. -/
def Obligations.PayloadWordsPairTheOctets : Prop :=
  ∀ p : List Byte,
    (payloadWords p).length = (p.length + 1) / 2 ∧
      (∀ (j : Nat) (a b : Byte), p[2 * j]? = some a → p[2 * j + 1]? = some b →
        ((payloadWords p)[j]?).map BitVec.toNat = some (a.toNat * 0x100 + b.toNat)) ∧
      ∀ a : Byte, p.length % 2 = 1 → p[p.length - 1]? = some a →
        ((payloadWords p)[(p.length - 1) / 2]?).map BitVec.toNat = some (a.toNat * 0x100)

/-- R92: the fold is the loop of the rule, it ends in 16 bits, it is 0 only for 0, and otherwise it is the residue of the
sum modulo `0xFFFF` in `1..0xFFFF`. -/
def Obligations.FoldIsTheOnesComplementResidue : Prop :=
  ∀ n : Nat,
    (n ≤ 0xFFFF → fold n = n) ∧ (0xFFFF < n → fold n = fold ((n >>> 16) + (n &&& 0xFFFF))) ∧ fold n ≤ 0xFFFF ∧
      (fold n = 0 ↔ n = 0) ∧ fold n % 0xFFFF = n % 0xFFFF

/-- R93: the result is `0xFFFF - Fold(Sum)`, with no substitution at either end. It holds whichever words a field too
wide for its check gives (notes/assumptions/10.md). -/
def Obligations.ChecksumIsTheComplementOfTheFold : Prop :=
  ∀ (f : Fields) (p : List Byte),
    (checksum f p).toNat = 0xFFFF - fold (wordSum (checksumWords f p)) ∧
      (checksum f p = 0x0000 ↔ fold (wordSum (checksumWords f p)) = 0xFFFF) ∧
      (checksum f p = 0xFFFF ↔ wordSum (checksumWords f p) = 0)

/-- R94: the bound on the word list, when a `k`-bit accumulator is exact, a width that is enough, and end-around carry
after every word. It holds whichever words a field too wide for its check gives (notes/assumptions/10.md). -/
def Obligations.AccumulatorsAgreeWithTheFold : Prop :=
  (∀ (f : Fields) (p : List Byte) (bufMax : Nat), p.length ≤ bufMax →
      (checksumWords f p).length ≤ 8 + (bufMax + 1) / 2 ∧
        ∀ k, 16 + Nat.clog 2 (8 + (bufMax + 1) / 2) ≤ k →
          accumulate k (checksumWords f p) = wordSum (checksumWords f p)) ∧
    (∀ (ws : List Half) (k : Nat), accumulate k ws = wordSum ws ↔ wordSum ws < 2 ^ k) ∧
    ∀ ws : List Half, endAroundSum ws = fold (wordSum ws)

/-- R95: what the checksum depends on. It holds whichever words a field too wide for its check gives
(notes/assumptions/10.md). -/
def Obligations.ChecksumDependsOnItsInputsOnly : Prop :=
  ∀ (f g : Fields) (p : List Byte),
    g.cp = f.cp → g.kp = f.kp → g.sp = f.sp → g.res0 = f.res0 → g.ver = f.ver → g.proto = f.proto → g.res1 = f.res1 →
      (f.kp = 1#32 → g.key = f.key) → (f.sp = 1#32 → g.seq = f.seq) → checksum g p = checksum f p

/-- R98: an odd payload has the checksum of the payload padded with one zero octet; the images differ. It holds whichever
words a field too wide for its check gives (notes/assumptions/10.md). -/
def Obligations.OddPayloadsPadWithZero : Prop :=
  ∀ (f : Fields) (p : List Byte), p.length % 2 = 1 →
    payloadWords (p ++ [0#8]) = payloadWords p ∧ checksum f (p ++ [0#8]) = checksum f p ∧
      wireImage f (p ++ [0#8]) ≠ wireImage f p

/-! ### Octet order -/

/-- R37: the octet-order primitives, as numbers, and the mixed-width view. -/
def Obligations.OctetOrderIsBigEndian : Prop :=
  (∀ v : Half, (be16 v).map BitVec.toNat = [v.toNat / 0x100, v.toNat % 0x100]) ∧
    (∀ v : Word, (be32 v).map BitVec.toNat =
      [v.toNat / 0x1000000, v.toNat / 0x10000 % 0x100, v.toNat / 0x100 % 0x100, v.toNat % 0x100]) ∧
    (∀ (s : List Byte) (i : Nat) (a b : Byte), s[i]? = some a → s[i + 1]? = some b →
      (w16 s i).toNat = a.toNat * 0x100 + b.toNat) ∧
    ∀ c r : Half, (w32 (be16 c ++ be16 r) 0).toNat = c.toNat * 0x10000 + r.toNat

/-! ### Laws of the codec -/

/-- R76: encode, then decode. -/
def Obligations.EncodeThenDecodeGivesTheHeaderBack : Prop :=
  ∀ s t : State, s.cfg.wf → exec .encode s = .next t → t.status = 0#32 →
    ∃ (u : State) (p : List Byte),
      exec (.decode 0) t = .next u ∧ u.status = 0#32 ∧ memRead s.pay 0 s.payLen.toNat = some p ∧
        u.payLen = s.payLen ∧ memRead u.pay 0 u.payLen.toNat = some p ∧
        (s.f.cp = 0#32 → s.f.EqualModuloAbsence u.f) ∧
        (s.f.cp = 1#32 → ({ s.f with csum := zext32 (checksum s.f p) } : Fields).EqualModuloAbsence u.f)

/-- R87: decode, then encode; the checksum octets and bit 14 of word 0 are the two places that may differ. -/
def Obligations.DecodeThenEncodeGivesTheImageBack : Prop :=
  ∀ (s t : State) (skip : Nat), s.wireLen.toNat ≤ s.cfg.bufMax →
    exec (.decode skip) s = .next t → t.status = 0#32 →
      ∃ (u : State) (b p : List Byte),
        memRead s.wire skip (s.wireLen.toNat - skip) = some b ∧ memRead t.pay 0 t.payLen.toNat = some p ∧
          exec .encode t = .next u ∧ u.status = 0#32 ∧ u.wireLen.toNat = s.wireLen.toNat - skip ∧
          u.wire.read 0 = some (b.getD 0 0 &&& 0xBF) ∧
          (t.f.cp = 1#32 → u.wire.read 4 = (be16 (checksum t.f p))[0]? ∧ u.wire.read 5 = (be16 (checksum t.f p))[1]?) ∧
          ∀ j, 0 < j → j < b.length → ¬ (t.f.cp = 1#32 ∧ (j = 4 ∨ j = 5)) → u.wire.read j = b[j]?

/-- R97: the words of an image encoded with `F_CP = 1` sum to a fold of `0xFFFF`. -/
def Obligations.EncodedImagesVerify : Prop :=
  ∀ s t : State, s.cfg.wf → s.f.cp = 1#32 → exec .encode s = .next t → t.status = 0#32 →
    ∃ img : List Byte, memRead t.wire 0 t.wireLen.toNat = some img ∧ fold (wordSum (payloadWords img)) = 0xFFFF

/-- R99: the two receive-side tests after `DECODE` of an image with C = 1 and `CHECKSUM`. -/
def Obligations.ReceiveSideTestsAgree : Prop :=
  ∀ (s t u : State) (skip : Nat) (b : List Byte), s.wireLen.toNat ≤ s.cfg.bufMax →
    memRead s.wire skip (s.wireLen.toNat - skip) = some b → exec (.decode skip) s = .next t → t.status = 0#32 →
      t.f.cp = 1#32 → exec .checksum t = .next u →
        u.status = 0#32 ∧
          (∀ v, exec .encode t = .next v → v.status = 0#32 →
            (u.f.csum = u.csumResult ↔ v.wire.read 4 = b[4]? ∧ v.wire.read 5 = b[5]?)) ∧
          ((w16 b 0).getLsbD 14 = false →
            (fold (wordSum (payloadWords b)) = 0xFFFF ↔
              u.f.csum = u.csumResult ∨ (u.csumResult = 0x0000 ∧ u.f.csum = 0xFFFF)))

/-! ### Whole-machine rules -/

/-- R5, R12 to R14, R16, R17, R22: the invariant every step keeps, from every state that has it. -/
def Obligations.StepKeepsTheInvariant : Prop :=
  ∀ s t : State, s.Inv → step s = .next t → t.Inv

/-- The same of a step with its faults and refusals recorded (R24). -/
def Obligations.RecordedStepsKeepTheInvariant : Prop :=
  ∀ s : State, s.Inv → (stickyStep s).Inv

/-- The invariant holds at power-on, whatever the legal parameters; and at `State.reset`, whose parameters are the
model's choice (notes/assumptions/1.md and 2.md). -/
def Obligations.PowerOnStateHasTheInvariant : Prop :=
  (∀ c : Config, c.wf → (State.resetWith c).Inv) ∧ State.reset.Inv

/-- R102: a command that ends with an error writes `STATUS` and nothing else; `CMD` holds the issued word. Of `reply`,
the model's own field, the second half says nothing. -/
def Obligations.ErrorsWriteStatusOnly : Prop :=
  (∀ (i : Instr) (s t : State), exec i s = .next t → (statusCode t.status).toNat ≠ 0 →
      t = { s with status := t.status }) ∧
    ∀ (w : Word) (s t : State), hostAction (.writeReg 0x00 .word w) s = .next t → (statusCode t.status).toNat ≠ 0 →
      t = { s with cmd := w, status := t.status, reply := t.reply }

/-- R14, R101: which outcomes each command reports, with their `INFO`. -/
def Obligations.CommandsReportTheirOwnOutcomes : Prop :=
  (∀ s t : State, exec .encode s = .next t →
      t.status = 0x00000000 ∨ t.status = 0x00000004 ∨
        ∃ i : FieldIndex, fieldMax i < (s.f.get i).toNat ∧ t.status = BitVec.ofNat 32 (fieldNumber i * 0x10000 + 1)) ∧
    (∀ (s t : State) (skip : Nat), exec (.decode skip) s = .next t →
      t.status = 0x00000000 ∨ t.status = 0x00040002 ∨ t.status = 0x00080002 ∨ t.status = 0x000C0002 ∨
        t.status = 0x00100002) ∧
    ∀ s t : State, exec .checksum s = .next t →
      t.status = 0x00000000 ∨
        ∃ i : FieldIndex, fieldMax i < (s.f.get i).toNat ∧ t.status = BitVec.ofNat 32 (fieldNumber i * 0x10000 + 1)

/-- R12: nothing but a `CMD` write and reset writes `STATUS`, and a write of it has no effect. -/
def Obligations.StatusIsWrittenByCommandsAndResetOnly : Prop :=
  ∀ (s t : State) (i : Input), perform i s = .next t →
    (∀ w, i ≠ .host (.writeReg 0x00 .word w)) → i ≠ .reset → t.status = s.status

/-- R16: `CSUM_RESULT` changes only by a successful `CHECKSUM`, which leaves its upper half 0, and by reset. -/
def Obligations.CsumResultIsWrittenByChecksumAndResetOnly : Prop :=
  ∀ (s t : State) (i : Input), perform i s = .next t →
    t.csumResult = s.csumResult ∨ (i = .reset ∧ t.csumResult = 0) ∨
      (i = .host (.writeReg 0x00 .word 0x00000003) ∧ t.status = 0#32 ∧ t.csumResult.toNat < 0x10000)

/-- R15: `CMD` holds the last word written to it, legal or not; reset clears it and issues nothing. -/
def Obligations.CmdHoldsTheLastWordWritten : Prop :=
  ∀ (s t : State) (i : Input), perform i s = .next t →
    (∀ w, i = .host (.writeReg 0x00 .word w) → t.cmd = w) ∧
      ((∀ w, i ≠ .host (.writeReg 0x00 .word w)) → i ≠ .reset → t.cmd = s.cmd) ∧
      (i = .reset → t.cmd = 0x00000000 ∧ t.status = 0x00000000)

/-- R25: a command's result does not depend on `CMD`, on the last outcome, on an earlier result, on the marks, or on what
the host did or will do. -/
def Obligations.CommandsReadNoHiddenState : Prop :=
  ∀ (i : Instr) (s : State) (cmd status csum : Word) (fm rm : Bool) (l : List Input) (r : Reply),
    let s' : State :=
      { s with cmd := cmd, status := status, csumResult := csum, faultMark := fm, refusedMark := rm, pending := l, reply := r }
    (∀ t, exec i s = .next t →
        exec i s' = .next
          { t with
            cmd := cmd
            csumResult := if i = .checksum ∧ t.status = 0#32 then t.csumResult else csum
            faultMark := fm
            refusedMark := rm
            pending := l
            reply := r }) ∧
      ∀ e, exec i s = .fault e → exec i s' = .fault e

/-- R40: nothing depends on `BASE`. -/
def Obligations.NothingDependsOnTheBaseAddress : Prop :=
  ∀ (s : State) (base : Nat),
    let move (x : State) : State := { x with cfg := { x.cfg with base := base } }
    (∀ t, step s = .next t → step (move s) = .next (move t)) ∧
      (∀ e, step s = .fault e → step (move s) = .fault e) ∧ ∀ e, step s = .refused e → step (move s) = .refused e

/-- R100: a command whose octets the host has written ends with exactly one outcome, in `STATUS`; no command is
refused. -/
def Obligations.ReadyCommandsComplete : Prop :=
  (∀ (i : Instr) (s : State), commandReady i s → ∃ t, exec i s = .next t ∧ statusLegal t.status = true) ∧
    ∀ (i : Instr) (s : State) (e : Refusal), exec i s ≠ .refused e

/-- R34, R47, R106, R118: an action inside the host contract is always carried out, whatever the state. -/
def Obligations.ActionsInTheContractAreCarriedOut : Prop :=
  ∀ (s : State) (a : HostAction), actionInContract a s →
    (∀ w i, a = .writeReg 0x00 .word w → decodeWord w = .command i → commandReady i s) → ∃ t, hostAction a s = .next t

/-- R31: each register has one offset, and each mapped offset one register. -/
def Obligations.RegisterMapIsOneToOne : Prop :=
  (∀ r : Reg, regAt (regOffset r) = some r) ∧ (∀ (o : Nat) (r : Reg), regAt o = some r → regOffset r = o) ∧
    ∀ o : Nat, (regAt o).isSome = true ↔ o % 4 = 0 ∧ (o ≤ 0x10 ∨ (0x20 ≤ o ∧ o ≤ 0x44))

/-- R54: the expansions of the pseudo-instructions. -/
def Obligations.PseudoInstructionsExpand : Prop :=
  Line.decodePlain.actions = [.writeReg 0x00 .word 0x00000002] ∧
    (∀ p : List Byte,
      (Line.loadPay p).actions =
          (p.zipIdx.map fun x => HostAction.writeOctet .pay x.2 x.1) ++
            [.writeReg 0x10 .word (BitVec.ofNat 32 p.length)] ∧
        (Line.loadWire p).actions =
          (p.zipIdx.map fun x => HostAction.writeOctet .wire x.2 x.1) ++
            [.writeReg 0x0C .word (BitVec.ofNat 32 p.length)]) ∧
    (∀ f : Fields,
      (Line.hdr f).actions =
        [.writeReg 0x20 .word f.cp, .writeReg 0x24 .word f.kp, .writeReg 0x28 .word f.sp, .writeReg 0x2C .word f.res0,
          .writeReg 0x30 .word f.ver, .writeReg 0x34 .word f.proto, .writeReg 0x38 .word f.csum,
          .writeReg 0x3C .word f.res1, .writeReg 0x40 .word f.key, .writeReg 0x44 .word f.seq]) ∧
    Line.defHdr.actions =
      (Line.hdr { cp := 0, kp := 0, sp := 0, res0 := 0, ver := 0, proto := 0x0800, csum := 0, res1 := 0, key := 0, seq := 0 }).actions ∧
    Line.relayTx.actions = Line.defHdr.actions ++ [.writeReg 0x00 .word 0x00000001] ∧
    Line.relayRx.actions = [.writeReg 0x00 .word 0x00140002]

/-- R42, R43: a `MemWrite` sets its octets and their marks and no others, and a `MemRead` of the same range gives them
back. -/
def Obligations.MemWriteThenMemReadGivesTheOctets : Prop :=
  ∀ (m : Memory) (a : Nat) (p : List Byte),
    memRead (memWrite m a p) a p.length = some p ∧
      ∀ c, c < a ∨ a + p.length ≤ c → (memWrite m a p).read c = m.read c
end

