-- ==== Sys2Proof/Laws/Checksum.lean ====
section
/-! SUPPORT. One round of the fold (R92), sums of word lists, payload words (R91). -/

namespace Sys2Proof.Machine

/-! ### One round of the fold -/

/-- A round splits the value at bit 16 and adds the parts. -/
theorem foldRound_eq (s : Nat) : (s >>> 16) + (s &&& 0xFFFF) = s / 65536 + s % 65536 := by
  rw [Nat.shiftRight_eq_div_pow, show (0xFFFF : Nat) = 2 ^ 16 - 1 by norm_num, Nat.and_two_pow_sub_one_eq_mod]

/-- A round keeps the residue modulo `0xFFFF`, since `2^16` is 1 there. -/
theorem foldRound_mod (s : Nat) : ((s >>> 16) + (s &&& 0xFFFF)) % 0xFFFF = s % 0xFFFF := by
  rw [foldRound_eq]
  omega

/-- A round of a value over `0xFFFF` makes it smaller. -/
theorem foldRound_lt {s : Nat} (h : 0xFFFF < s) : (s >>> 16) + (s &&& 0xFFFF) < s := by
  rw [foldRound_eq]
  omega

/-- A round of a value over `0xFFFF` leaves it positive. -/
theorem foldRound_pos {s : Nat} (h : 0xFFFF < s) : 0 < (s >>> 16) + (s &&& 0xFFFF) := by
  rw [foldRound_eq]
  omega

/-! ### Sums -/

@[simp] theorem wordSum_nil : wordSum [] = 0 := rfl

@[simp] theorem wordSum_cons (w : Half) (ws : List Half) : wordSum (w :: ws) = w.toNat + wordSum ws := by
  simp [wordSum]

@[simp] theorem wordSum_append (ws vs : List Half) : wordSum (ws ++ vs) = wordSum ws + wordSum vs := by
  simp [wordSum]

/-! ### Payload words -/

@[simp] theorem payloadWords_nil : payloadWords [] = [] := rfl

@[simp] theorem payloadWords_single (b : Byte) : payloadWords [b] = [octetPair b 0] := rfl

@[simp] theorem payloadWords_cons (b b' : Byte) (r : List Byte) :
    payloadWords (b :: b' :: r) = octetPair b b' :: payloadWords r := rfl

/-- An even number of octets in front gives its own words in front. -/
theorem payloadWords_append (q r : List Byte) (h : q.length % 2 = 0) :
    payloadWords (q ++ r) = payloadWords q ++ payloadWords r := by
  induction q using payloadWords.induct with
  | case1 => rfl
  | case2 b => simp at h
  | case3 b b' q ih =>
    simp only [List.length_cons] at h
    simp [ih (by omega)]

end Sys2Proof.Machine
end

