-- ==== Sys2Proof/Laws/Memory.lean ====
section
/-! SUPPORT. The buffers: read after write, the canonical form, octet sequences (R35, R42, R43). -/

namespace Sys2Proof.Machine

/-! ### One octet -/

@[simp] theorem Memory.read_nil (a : Nat) : Memory.read [] a = none := rfl

theorem Memory.read_write_same (m : Memory) (a : Nat) (b : Byte) : (m.write a b).read a = some b := by
  induction m with
  | nil => simp [Memory.write, Memory.read]
  | cons x r ih =>
    obtain ⟨k, v⟩ := x
    simp only [Memory.write]
    split
    · simp [Memory.read]
    · split
      · simp [Memory.read]
      · have : k ≠ a := by omega
        simp [Memory.read, this, ih]

theorem Memory.read_write_other (m : Memory) {a c : Nat} (b : Byte) (h : c ≠ a) : (m.write a b).read c = m.read c := by
  induction m with
  | nil => simp [Memory.write, Memory.read, Ne.symm h]
  | cons x r ih =>
    obtain ⟨k, v⟩ := x
    simp only [Memory.write]
    split
    · simp [Memory.read, Ne.symm h]
    · split
      · subst k
        simp [Memory.read, Ne.symm h]
      · simp [Memory.read, ih]

/-- What reading any octet after a write gives. -/
theorem Memory.read_write (m : Memory) (a c : Nat) (b : Byte) :
    (m.write a b).read c = if c = a then some b else m.read c := by
  split
  · next h => rw [h, Memory.read_write_same]
  · next h => exact Memory.read_write_other m b h

/-- The cells of a buffer after a write: the new one, and old ones. -/
theorem Memory.mem_write {m : Memory} {a : Nat} {b : Byte} {x : Host.Cell} (h : x ∈ m.write a b) :
    x = (a, b) ∨ x ∈ m := by
  induction m with
  | nil => simpa [Memory.write] using h
  | cons y r ih =>
    obtain ⟨k, v⟩ := y
    simp only [Memory.write] at h
    split at h
    · simpa using h
    · split at h
      · rcases List.mem_cons.1 h with h | h
        · exact .inl h
        · exact .inr (List.mem_cons_of_mem _ h)
      · rcases List.mem_cons.1 h with h | h
        · exact .inr (h ▸ List.mem_cons_self)
        · exact (ih h).imp id (List.mem_cons_of_mem _)

/-- A write keeps the canonical form. -/
theorem Memory.wf_write {m : Memory} (h : m.wf) (a : Nat) (b : Byte) : (m.write a b).wf := by
  induction m with
  | nil => simp [Memory.write, Memory.wf]
  | cons y r ih =>
    obtain ⟨k, v⟩ := y
    have hr := List.pairwise_cons.1 h
    simp only [Memory.write]
    split
    · next hak =>
      refine List.pairwise_cons.2 ⟨fun z hz => ?_, h⟩
      rcases List.mem_cons.1 hz with rfl | hz
      · exact hak
      · exact lt_trans hak (hr.1 z hz)
    · split
      · next hak =>
        subst hak
        exact List.pairwise_cons.2 hr
      · next h1 h2 =>
        refine List.pairwise_cons.2 ⟨fun z hz => ?_, ih hr.2⟩
        rcases Memory.mem_write hz with rfl | hz
        · show k < a
          omega
        · exact hr.1 z hz

/-- A write below the bound keeps every cell below the bound. -/
theorem Memory.below_write {m : Memory} {n a : Nat} (h : m.below n) (ha : a < n) (b : Byte) :
    (m.write a b).below n := by
  intro x hx
  rcases Memory.mem_write hx with rfl | hx
  · exact ha
  · exact h x hx

/-! ### Octet sequences -/

/-- `MemWrite` keeps the canonical form. -/
theorem wf_memWrite {m : Memory} (h : m.wf) (a : Nat) (p : List Byte) : (memWrite m a p).wf := by
  induction p generalizing m a with
  | nil => exact h
  | cons b r ih => exact ih (Memory.wf_write h a b) (a + 1)

/-- `MemWrite` inside the buffer keeps every cell inside the buffer. -/
theorem below_memWrite {m : Memory} {n a : Nat} {p : List Byte} (h : m.below n) (ha : a + p.length ≤ n) :
    (memWrite m a p).below n := by
  induction p generalizing m a with
  | nil => exact h
  | cons b r ih =>
    simp only [List.length_cons] at ha
    exact ih (Memory.below_write h (by omega) b) (by omega)

/-- What reading any octet after a `MemWrite` gives: a written octet inside its range, the old one outside (R42, R43). -/
theorem read_memWrite (m : Memory) (a c : Nat) (p : List Byte) :
    (memWrite m a p).read c = if a ≤ c ∧ c < a + p.length then p[c - a]? else m.read c := by
  induction p generalizing m a with
  | nil => simp only [memWrite, List.length_nil]; rw [if_neg (by omega)]
  | cons b r ih =>
    simp only [memWrite, ih, Memory.read_write, List.length_cons]
    by_cases h : c = a
    · subst h
      rw [if_neg (by omega), if_pos rfl, if_pos (by omega)]
      simp
    · by_cases h' : a + 1 ≤ c ∧ c < a + 1 + r.length
      · rw [if_pos h', if_pos (by omega)]
        obtain ⟨d, rfl⟩ : ∃ d, c = a + 1 + d := ⟨c - (a + 1), by omega⟩
        have h1 : a + 1 + d - (a + 1) = d := by omega
        have h2 : a + 1 + d - a = d + 1 := by omega
        rw [h1, h2, List.getElem?_cons_succ]
      · rw [if_neg h', if_neg h, if_neg (by omega)]

/-- When `MemRead` answers, what it answers: the octets of its range (R42). -/
theorem memRead_eq_some {m : Memory} {a n : Nat} {p : List Byte} (h : memRead m a n = some p) :
    p.length = n ∧ ∀ j < n, m.read (a + j) = p[j]? := by
  induction n generalizing a p with
  | zero =>
    simp only [memRead, Option.some.injEq] at h
    subst h
    simp
  | succ n ih =>
    simp only [memRead] at h
    split at h
    · exact absurd h (by simp)
    · next b hb =>
      split at h
      · exact absurd h (by simp)
      · next r hr =>
        obtain rfl : b :: r = p := by simpa using h
        obtain ⟨hl, hj⟩ := ih hr
        refine ⟨by simp [hl], fun j hlt => ?_⟩
        cases j with
        | zero => simpa using hb
        | succ j =>
          have := hj j (by omega)
          rw [show a + (j + 1) = a + 1 + j by omega, List.getElem?_cons_succ]
          exact this

/-- `MemRead` answers the octets of its range when all of them are written (R42). -/
theorem memRead_of_read {m : Memory} {a : Nat} {p : List Byte} (h : ∀ j < p.length, m.read (a + j) = p[j]?) :
    memRead m a p.length = some p := by
  induction p generalizing a with
  | nil => rfl
  | cons b r ih =>
    have h0 : m.read a = some b := by simpa using h 0 (by simp)
    have hr : memRead m (a + 1) r.length = some r := by
      refine ih fun j hj => ?_
      have := h (j + 1) (by simpa using hj)
      rwa [List.getElem?_cons_succ, show a + (j + 1) = a + 1 + j by omega] at this
    simp [memRead, h0, hr]

/-- The octets at the front of a range that reads are those of the whole. -/
theorem memRead_take {m : Memory} {a n k : Nat} {p : List Byte} (h : memRead m a n = some p) (hk : k ≤ n) :
    memRead m a k = some (p.take k) := by
  obtain ⟨hl, hr⟩ := memRead_eq_some h
  have hlen : (p.take k).length = k := by rw [List.length_take]; omega
  have h' := memRead_of_read (m := m) (a := a) (p := p.take k) fun j hj => by
    rw [hr j (by omega), List.getElem?_take_of_lt (by omega)]
  rwa [hlen] at h'

/-- `MemRead` answers exactly when every octet of its range carries a written mark (R42, R44). -/
theorem memRead_isSome_iff (m : Memory) (a n : Nat) : (memRead m a n).isSome = true ↔ octetsWritten m a n := by
  induction n generalizing a with
  | zero => simp [memRead, octetsWritten]
  | succ n ih =>
    have key : octetsWritten m a (n + 1) ↔ (m.read a).isSome = true ∧ octetsWritten m (a + 1) n := by
      constructor
      · intro h
        refine ⟨by simpa using h 0 (by omega), fun j hj => ?_⟩
        have := h (j + 1) (by omega)
        rwa [show a + (j + 1) = a + 1 + j by omega] at this
      · rintro ⟨h0, h1⟩ j hj
        cases j with
        | zero => simpa using h0
        | succ j =>
          rw [show a + (j + 1) = a + 1 + j by omega]
          exact h1 j (by omega)
    rw [key, ← ih (a + 1)]
    simp only [memRead]
    cases m.read a with
    | none => simp
    | some b => cases memRead m (a + 1) n <;> simp

/-- `MemRead` looks only at the octets of its range. -/
theorem memRead_congr {m m' : Memory} {a n : Nat} (h : ∀ j < n, m'.read (a + j) = m.read (a + j)) :
    memRead m' a n = memRead m a n := by
  induction n generalizing a with
  | zero => rfl
  | succ n ih =>
    have h0 : m'.read a = m.read a := by simpa using h 0 (by omega)
    have hr : memRead m' (a + 1) n = memRead m (a + 1) n := by
      refine ih fun j hj => ?_
      have := h (j + 1) (by omega)
      rwa [show a + (j + 1) = a + 1 + j by omega] at this
    simp only [memRead, h0, hr]

/-- Everything `withOctets` can do: fault on an unwritten octet, or go on with the octets of its range. -/
theorem withOctets_cases (m : Memory) (a n : Nat) (go : List Byte → Result) :
    (memRead m a n = none ∧ withOctets m a n go = .fault .unwrittenByte) ∨
      ∃ p, memRead m a n = some p ∧ withOctets m a n go = go p := by
  unfold withOctets
  cases h : memRead m a n with
  | none => exact .inl ⟨rfl, rfl⟩
  | some p => exact .inr ⟨p, rfl, rfl⟩

end Sys2Proof.Machine
end

