-- ==== Sys2Proof/Laws/State.lean ====
section
/-! SUPPORT. One lemma for each field of `State` under each named update, and for `finish` and `takeReset`. -/

namespace Sys2Proof.Machine

section
variable (s : State)

section
variable (x : Word)
@[simp] theorem State.setCmd_cfg : (s.setCmd x).cfg = s.cfg := rfl
@[simp] theorem State.setCmd_cmd : (s.setCmd x).cmd = x := rfl
@[simp] theorem State.setCmd_status : (s.setCmd x).status = s.status := rfl
@[simp] theorem State.setCmd_csumResult : (s.setCmd x).csumResult = s.csumResult := rfl
@[simp] theorem State.setCmd_wireLen : (s.setCmd x).wireLen = s.wireLen := rfl
@[simp] theorem State.setCmd_payLen : (s.setCmd x).payLen = s.payLen := rfl
@[simp] theorem State.setCmd_f : (s.setCmd x).f = s.f := rfl
@[simp] theorem State.setCmd_wire : (s.setCmd x).wire = s.wire := rfl
@[simp] theorem State.setCmd_pay : (s.setCmd x).pay = s.pay := rfl
@[simp] theorem State.setCmd_faultMark : (s.setCmd x).faultMark = s.faultMark := rfl
@[simp] theorem State.setCmd_refusedMark : (s.setCmd x).refusedMark = s.refusedMark := rfl
@[simp] theorem State.setCmd_pending : (s.setCmd x).pending = s.pending := rfl
@[simp] theorem State.setCmd_reply : (s.setCmd x).reply = s.reply := rfl
end

section
variable (x : Word)
@[simp] theorem State.setStatus_cfg : (s.setStatus x).cfg = s.cfg := rfl
@[simp] theorem State.setStatus_cmd : (s.setStatus x).cmd = s.cmd := rfl
@[simp] theorem State.setStatus_status : (s.setStatus x).status = x := rfl
@[simp] theorem State.setStatus_csumResult : (s.setStatus x).csumResult = s.csumResult := rfl
@[simp] theorem State.setStatus_wireLen : (s.setStatus x).wireLen = s.wireLen := rfl
@[simp] theorem State.setStatus_payLen : (s.setStatus x).payLen = s.payLen := rfl
@[simp] theorem State.setStatus_f : (s.setStatus x).f = s.f := rfl
@[simp] theorem State.setStatus_wire : (s.setStatus x).wire = s.wire := rfl
@[simp] theorem State.setStatus_pay : (s.setStatus x).pay = s.pay := rfl
@[simp] theorem State.setStatus_faultMark : (s.setStatus x).faultMark = s.faultMark := rfl
@[simp] theorem State.setStatus_refusedMark : (s.setStatus x).refusedMark = s.refusedMark := rfl
@[simp] theorem State.setStatus_pending : (s.setStatus x).pending = s.pending := rfl
@[simp] theorem State.setStatus_reply : (s.setStatus x).reply = s.reply := rfl
end

section
variable (x : Word)
@[simp] theorem State.setCsumResult_cfg : (s.setCsumResult x).cfg = s.cfg := rfl
@[simp] theorem State.setCsumResult_cmd : (s.setCsumResult x).cmd = s.cmd := rfl
@[simp] theorem State.setCsumResult_status : (s.setCsumResult x).status = s.status := rfl
@[simp] theorem State.setCsumResult_csumResult : (s.setCsumResult x).csumResult = x := rfl
@[simp] theorem State.setCsumResult_wireLen : (s.setCsumResult x).wireLen = s.wireLen := rfl
@[simp] theorem State.setCsumResult_payLen : (s.setCsumResult x).payLen = s.payLen := rfl
@[simp] theorem State.setCsumResult_f : (s.setCsumResult x).f = s.f := rfl
@[simp] theorem State.setCsumResult_wire : (s.setCsumResult x).wire = s.wire := rfl
@[simp] theorem State.setCsumResult_pay : (s.setCsumResult x).pay = s.pay := rfl
@[simp] theorem State.setCsumResult_faultMark : (s.setCsumResult x).faultMark = s.faultMark := rfl
@[simp] theorem State.setCsumResult_refusedMark : (s.setCsumResult x).refusedMark = s.refusedMark := rfl
@[simp] theorem State.setCsumResult_pending : (s.setCsumResult x).pending = s.pending := rfl
@[simp] theorem State.setCsumResult_reply : (s.setCsumResult x).reply = s.reply := rfl
end

section
variable (x : Word)
@[simp] theorem State.setWireLen_cfg : (s.setWireLen x).cfg = s.cfg := rfl
@[simp] theorem State.setWireLen_cmd : (s.setWireLen x).cmd = s.cmd := rfl
@[simp] theorem State.setWireLen_status : (s.setWireLen x).status = s.status := rfl
@[simp] theorem State.setWireLen_csumResult : (s.setWireLen x).csumResult = s.csumResult := rfl
@[simp] theorem State.setWireLen_wireLen : (s.setWireLen x).wireLen = x := rfl
@[simp] theorem State.setWireLen_payLen : (s.setWireLen x).payLen = s.payLen := rfl
@[simp] theorem State.setWireLen_f : (s.setWireLen x).f = s.f := rfl
@[simp] theorem State.setWireLen_wire : (s.setWireLen x).wire = s.wire := rfl
@[simp] theorem State.setWireLen_pay : (s.setWireLen x).pay = s.pay := rfl
@[simp] theorem State.setWireLen_faultMark : (s.setWireLen x).faultMark = s.faultMark := rfl
@[simp] theorem State.setWireLen_refusedMark : (s.setWireLen x).refusedMark = s.refusedMark := rfl
@[simp] theorem State.setWireLen_pending : (s.setWireLen x).pending = s.pending := rfl
@[simp] theorem State.setWireLen_reply : (s.setWireLen x).reply = s.reply := rfl
end

section
variable (x : Word)
@[simp] theorem State.setPayLen_cfg : (s.setPayLen x).cfg = s.cfg := rfl
@[simp] theorem State.setPayLen_cmd : (s.setPayLen x).cmd = s.cmd := rfl
@[simp] theorem State.setPayLen_status : (s.setPayLen x).status = s.status := rfl
@[simp] theorem State.setPayLen_csumResult : (s.setPayLen x).csumResult = s.csumResult := rfl
@[simp] theorem State.setPayLen_wireLen : (s.setPayLen x).wireLen = s.wireLen := rfl
@[simp] theorem State.setPayLen_payLen : (s.setPayLen x).payLen = x := rfl
@[simp] theorem State.setPayLen_f : (s.setPayLen x).f = s.f := rfl
@[simp] theorem State.setPayLen_wire : (s.setPayLen x).wire = s.wire := rfl
@[simp] theorem State.setPayLen_pay : (s.setPayLen x).pay = s.pay := rfl
@[simp] theorem State.setPayLen_faultMark : (s.setPayLen x).faultMark = s.faultMark := rfl
@[simp] theorem State.setPayLen_refusedMark : (s.setPayLen x).refusedMark = s.refusedMark := rfl
@[simp] theorem State.setPayLen_pending : (s.setPayLen x).pending = s.pending := rfl
@[simp] theorem State.setPayLen_reply : (s.setPayLen x).reply = s.reply := rfl
end

section
variable (x : Fields)
@[simp] theorem State.setFields_cfg : (s.setFields x).cfg = s.cfg := rfl
@[simp] theorem State.setFields_cmd : (s.setFields x).cmd = s.cmd := rfl
@[simp] theorem State.setFields_status : (s.setFields x).status = s.status := rfl
@[simp] theorem State.setFields_csumResult : (s.setFields x).csumResult = s.csumResult := rfl
@[simp] theorem State.setFields_wireLen : (s.setFields x).wireLen = s.wireLen := rfl
@[simp] theorem State.setFields_payLen : (s.setFields x).payLen = s.payLen := rfl
@[simp] theorem State.setFields_f : (s.setFields x).f = x := rfl
@[simp] theorem State.setFields_wire : (s.setFields x).wire = s.wire := rfl
@[simp] theorem State.setFields_pay : (s.setFields x).pay = s.pay := rfl
@[simp] theorem State.setFields_faultMark : (s.setFields x).faultMark = s.faultMark := rfl
@[simp] theorem State.setFields_refusedMark : (s.setFields x).refusedMark = s.refusedMark := rfl
@[simp] theorem State.setFields_pending : (s.setFields x).pending = s.pending := rfl
@[simp] theorem State.setFields_reply : (s.setFields x).reply = s.reply := rfl
end

section
variable (x : Memory)
@[simp] theorem State.setWire_cfg : (s.setWire x).cfg = s.cfg := rfl
@[simp] theorem State.setWire_cmd : (s.setWire x).cmd = s.cmd := rfl
@[simp] theorem State.setWire_status : (s.setWire x).status = s.status := rfl
@[simp] theorem State.setWire_csumResult : (s.setWire x).csumResult = s.csumResult := rfl
@[simp] theorem State.setWire_wireLen : (s.setWire x).wireLen = s.wireLen := rfl
@[simp] theorem State.setWire_payLen : (s.setWire x).payLen = s.payLen := rfl
@[simp] theorem State.setWire_f : (s.setWire x).f = s.f := rfl
@[simp] theorem State.setWire_wire : (s.setWire x).wire = x := rfl
@[simp] theorem State.setWire_pay : (s.setWire x).pay = s.pay := rfl
@[simp] theorem State.setWire_faultMark : (s.setWire x).faultMark = s.faultMark := rfl
@[simp] theorem State.setWire_refusedMark : (s.setWire x).refusedMark = s.refusedMark := rfl
@[simp] theorem State.setWire_pending : (s.setWire x).pending = s.pending := rfl
@[simp] theorem State.setWire_reply : (s.setWire x).reply = s.reply := rfl
end

section
variable (x : Memory)
@[simp] theorem State.setPay_cfg : (s.setPay x).cfg = s.cfg := rfl
@[simp] theorem State.setPay_cmd : (s.setPay x).cmd = s.cmd := rfl
@[simp] theorem State.setPay_status : (s.setPay x).status = s.status := rfl
@[simp] theorem State.setPay_csumResult : (s.setPay x).csumResult = s.csumResult := rfl
@[simp] theorem State.setPay_wireLen : (s.setPay x).wireLen = s.wireLen := rfl
@[simp] theorem State.setPay_payLen : (s.setPay x).payLen = s.payLen := rfl
@[simp] theorem State.setPay_f : (s.setPay x).f = s.f := rfl
@[simp] theorem State.setPay_wire : (s.setPay x).wire = s.wire := rfl
@[simp] theorem State.setPay_pay : (s.setPay x).pay = x := rfl
@[simp] theorem State.setPay_faultMark : (s.setPay x).faultMark = s.faultMark := rfl
@[simp] theorem State.setPay_refusedMark : (s.setPay x).refusedMark = s.refusedMark := rfl
@[simp] theorem State.setPay_pending : (s.setPay x).pending = s.pending := rfl
@[simp] theorem State.setPay_reply : (s.setPay x).reply = s.reply := rfl
end

section
variable (x : Bool)
@[simp] theorem State.setFaultMark_cfg : (s.setFaultMark x).cfg = s.cfg := rfl
@[simp] theorem State.setFaultMark_cmd : (s.setFaultMark x).cmd = s.cmd := rfl
@[simp] theorem State.setFaultMark_status : (s.setFaultMark x).status = s.status := rfl
@[simp] theorem State.setFaultMark_csumResult : (s.setFaultMark x).csumResult = s.csumResult := rfl
@[simp] theorem State.setFaultMark_wireLen : (s.setFaultMark x).wireLen = s.wireLen := rfl
@[simp] theorem State.setFaultMark_payLen : (s.setFaultMark x).payLen = s.payLen := rfl
@[simp] theorem State.setFaultMark_f : (s.setFaultMark x).f = s.f := rfl
@[simp] theorem State.setFaultMark_wire : (s.setFaultMark x).wire = s.wire := rfl
@[simp] theorem State.setFaultMark_pay : (s.setFaultMark x).pay = s.pay := rfl
@[simp] theorem State.setFaultMark_faultMark : (s.setFaultMark x).faultMark = x := rfl
@[simp] theorem State.setFaultMark_refusedMark : (s.setFaultMark x).refusedMark = s.refusedMark := rfl
@[simp] theorem State.setFaultMark_pending : (s.setFaultMark x).pending = s.pending := rfl
@[simp] theorem State.setFaultMark_reply : (s.setFaultMark x).reply = s.reply := rfl
end

section
variable (x : Bool)
@[simp] theorem State.setRefusedMark_cfg : (s.setRefusedMark x).cfg = s.cfg := rfl
@[simp] theorem State.setRefusedMark_cmd : (s.setRefusedMark x).cmd = s.cmd := rfl
@[simp] theorem State.setRefusedMark_status : (s.setRefusedMark x).status = s.status := rfl
@[simp] theorem State.setRefusedMark_csumResult : (s.setRefusedMark x).csumResult = s.csumResult := rfl
@[simp] theorem State.setRefusedMark_wireLen : (s.setRefusedMark x).wireLen = s.wireLen := rfl
@[simp] theorem State.setRefusedMark_payLen : (s.setRefusedMark x).payLen = s.payLen := rfl
@[simp] theorem State.setRefusedMark_f : (s.setRefusedMark x).f = s.f := rfl
@[simp] theorem State.setRefusedMark_wire : (s.setRefusedMark x).wire = s.wire := rfl
@[simp] theorem State.setRefusedMark_pay : (s.setRefusedMark x).pay = s.pay := rfl
@[simp] theorem State.setRefusedMark_faultMark : (s.setRefusedMark x).faultMark = s.faultMark := rfl
@[simp] theorem State.setRefusedMark_refusedMark : (s.setRefusedMark x).refusedMark = x := rfl
@[simp] theorem State.setRefusedMark_pending : (s.setRefusedMark x).pending = s.pending := rfl
@[simp] theorem State.setRefusedMark_reply : (s.setRefusedMark x).reply = s.reply := rfl
end

section
variable (x : List Input)
@[simp] theorem State.setPending_cfg : (s.setPending x).cfg = s.cfg := rfl
@[simp] theorem State.setPending_cmd : (s.setPending x).cmd = s.cmd := rfl
@[simp] theorem State.setPending_status : (s.setPending x).status = s.status := rfl
@[simp] theorem State.setPending_csumResult : (s.setPending x).csumResult = s.csumResult := rfl
@[simp] theorem State.setPending_wireLen : (s.setPending x).wireLen = s.wireLen := rfl
@[simp] theorem State.setPending_payLen : (s.setPending x).payLen = s.payLen := rfl
@[simp] theorem State.setPending_f : (s.setPending x).f = s.f := rfl
@[simp] theorem State.setPending_wire : (s.setPending x).wire = s.wire := rfl
@[simp] theorem State.setPending_pay : (s.setPending x).pay = s.pay := rfl
@[simp] theorem State.setPending_faultMark : (s.setPending x).faultMark = s.faultMark := rfl
@[simp] theorem State.setPending_refusedMark : (s.setPending x).refusedMark = s.refusedMark := rfl
@[simp] theorem State.setPending_pending : (s.setPending x).pending = x := rfl
@[simp] theorem State.setPending_reply : (s.setPending x).reply = s.reply := rfl
end

section
variable (x : Reply)
@[simp] theorem State.setReply_cfg : (s.setReply x).cfg = s.cfg := rfl
@[simp] theorem State.setReply_cmd : (s.setReply x).cmd = s.cmd := rfl
@[simp] theorem State.setReply_status : (s.setReply x).status = s.status := rfl
@[simp] theorem State.setReply_csumResult : (s.setReply x).csumResult = s.csumResult := rfl
@[simp] theorem State.setReply_wireLen : (s.setReply x).wireLen = s.wireLen := rfl
@[simp] theorem State.setReply_payLen : (s.setReply x).payLen = s.payLen := rfl
@[simp] theorem State.setReply_f : (s.setReply x).f = s.f := rfl
@[simp] theorem State.setReply_wire : (s.setReply x).wire = s.wire := rfl
@[simp] theorem State.setReply_pay : (s.setReply x).pay = s.pay := rfl
@[simp] theorem State.setReply_faultMark : (s.setReply x).faultMark = s.faultMark := rfl
@[simp] theorem State.setReply_refusedMark : (s.setReply x).refusedMark = s.refusedMark := rfl
@[simp] theorem State.setReply_pending : (s.setReply x).pending = s.pending := rfl
@[simp] theorem State.setReply_reply : (s.setReply x).reply = x := rfl
end

section
variable (c : Code) (info : Nat)
@[simp] theorem State.finish_cfg : (s.finish c info).cfg = s.cfg := rfl
@[simp] theorem State.finish_cmd : (s.finish c info).cmd = s.cmd := rfl
@[simp] theorem State.finish_status : (s.finish c info).status = statusWord c info := rfl
@[simp] theorem State.finish_csumResult : (s.finish c info).csumResult = s.csumResult := rfl
@[simp] theorem State.finish_wireLen : (s.finish c info).wireLen = s.wireLen := rfl
@[simp] theorem State.finish_payLen : (s.finish c info).payLen = s.payLen := rfl
@[simp] theorem State.finish_f : (s.finish c info).f = s.f := rfl
@[simp] theorem State.finish_wire : (s.finish c info).wire = s.wire := rfl
@[simp] theorem State.finish_pay : (s.finish c info).pay = s.pay := rfl
@[simp] theorem State.finish_faultMark : (s.finish c info).faultMark = s.faultMark := rfl
@[simp] theorem State.finish_refusedMark : (s.finish c info).refusedMark = s.refusedMark := rfl
@[simp] theorem State.finish_pending : (s.finish c info).pending = s.pending := rfl
@[simp] theorem State.finish_reply : (s.finish c info).reply = s.reply := rfl
end

@[simp] theorem State.takeReset_cfg : s.takeReset.cfg = s.cfg := rfl
@[simp] theorem State.takeReset_cmd : s.takeReset.cmd = 0 := rfl
@[simp] theorem State.takeReset_status : s.takeReset.status = 0 := rfl
@[simp] theorem State.takeReset_csumResult : s.takeReset.csumResult = 0 := rfl
@[simp] theorem State.takeReset_wireLen : s.takeReset.wireLen = 0 := rfl
@[simp] theorem State.takeReset_payLen : s.takeReset.payLen = 0 := rfl
@[simp] theorem State.takeReset_f : s.takeReset.f = Fields.reset := rfl
@[simp] theorem State.takeReset_wire : s.takeReset.wire = [] := rfl
@[simp] theorem State.takeReset_pay : s.takeReset.pay = [] := rfl
@[simp] theorem State.takeReset_faultMark : s.takeReset.faultMark = s.faultMark := rfl
@[simp] theorem State.takeReset_refusedMark : s.takeReset.refusedMark = s.refusedMark := rfl
@[simp] theorem State.takeReset_pending : s.takeReset.pending = s.pending := rfl
@[simp] theorem State.takeReset_reply : s.takeReset.reply = .nothing := rfl

@[simp] theorem State.buf_wire : s.buf .wire = s.wire := rfl
@[simp] theorem State.buf_pay : s.buf .pay = s.pay := rfl
@[simp] theorem State.setBuf_wire (m : Memory) : s.setBuf .wire m = s.setWire m := rfl
@[simp] theorem State.setBuf_pay (m : Memory) : s.setBuf .pay m = s.setPay m := rfl

/-- A buffer that is written holds what was written; the other one is as before. -/
theorem State.buf_setBuf (b b' : Buf) (m : Memory) : (s.setBuf b m).buf b' = if b' = b then m else s.buf b' := by
  cases b <;> cases b' <;> rfl

end

end Sys2Proof.Machine
end

