-- ==== Sys2Proof/Laws/Codec.lean ====
section
/-! SUPPORT. Everything each command can do (R70, R80, R96), said once. -/

namespace Sys2Proof.Machine

/-! ### Lengths -/

@[simp] theorem be16_length (v : Half) : (be16 v).length = 2 := rfl

@[simp] theorem be32_length (v : Word) : (be32 v).length = 4 := rfl

@[simp] theorem checksumPart_length (f : Fields) (p : List Byte) :
    (checksumPart f p).length = partLength (shapeOfFields f).c := by
  by_cases h : f.cp = 1#32 <;> simp [checksumPart, partLength, shapeOfFields, h]

@[simp] theorem optionalPart_length (present : Bool) (v : Word) :
    (optionalPart present v).length = partLength present := by
  cases present <;> simp [optionalPart, partLength]

/-- R61: `L = H + len(payload)`. -/
theorem wireImage_length (f : Fields) (p : List Byte) :
    (wireImage f p).length = (shapeOfFields f).headerLength + p.length := by
  simp only [wireImage, List.length_append, be16_length, checksumPart_length, optionalPart_length, Shape.headerLength,
    shapeOfFields]

/-- R81: `m`, with the subtraction that stops at 0. -/
theorem remaining_eq (skip : Nat) (s : State) : remaining skip s = s.wireLen.toNat - skip := by
  unfold remaining
  split <;> omega

/-! ### The commands -/

/-- How `ENCODE` ends: an invalid field, no room, an unwritten payload octet, or the image written. -/
theorem execEncode_cases (s : State) :
    (∃ i, firstInvalid (encodeChecked s.f) s.f = some i ∧
        execEncode s = .next (s.finish .invalidFieldWidth (fieldNumber i))) ∨
      (firstInvalid (encodeChecked s.f) s.f = none ∧ s.cfg.bufMax < encodeLength s ∧
        execEncode s = .next (s.finish .capacityExceeded 0)) ∨
      (firstInvalid (encodeChecked s.f) s.f = none ∧ encodeLength s ≤ s.cfg.bufMax ∧
        memRead s.pay 0 s.payLen.toNat = none ∧ execEncode s = .fault .unwrittenByte) ∨
      ∃ p, firstInvalid (encodeChecked s.f) s.f = none ∧ encodeLength s ≤ s.cfg.bufMax ∧
        memRead s.pay 0 s.payLen.toNat = some p ∧
        execEncode s = .next (((s.setWire (memWrite s.wire 0 (wireImage s.f p))).setWireLen
          (BitVec.ofNat 32 (encodeLength s))).finish .ok 0) := by
  unfold execEncode
  cases hf : firstInvalid (encodeChecked s.f) s.f with
  | some i => exact .inl ⟨i, rfl, rfl⟩
  | none =>
    by_cases hl : s.cfg.bufMax < encodeLength s
    · exact .inr (.inl ⟨rfl, hl, by simp [hl, raise]⟩)
    · simp only [hl, if_false]
      obtain ⟨hp, hw⟩ | ⟨p, hp, hw⟩ := withOctets_cases s.pay 0 s.payLen.toNat _ <;> rw [hw]
      · exact .inr (.inr (.inl ⟨trivial, by omega, hp, rfl⟩))
      · exact .inr (.inr (.inr ⟨p, trivial, by omega, hp, rfl⟩))

/-- How `DECODE` ends: under 4 octets, word 0 unwritten, under `H` octets, an unwritten image octet, or the header and
payload written. -/
theorem execDecode_cases (skip : Nat) (s : State) :
    (remaining skip s < 4 ∧ execDecode skip s = .next (s.finish .truncatedHeader 4)) ∨
      (4 ≤ remaining skip s ∧ memRead s.wire skip 2 = none ∧ execDecode skip s = .fault .unwrittenByte) ∨
      ∃ first, 4 ≤ remaining skip s ∧ memRead s.wire skip 2 = some first ∧
        ((remaining skip s < (shapeOfWord0 (w16 first 0)).headerLength ∧
            execDecode skip s =
              .next (s.finish .truncatedHeader (shapeOfWord0 (w16 first 0)).headerLength)) ∨
          ((shapeOfWord0 (w16 first 0)).headerLength ≤ remaining skip s ∧
            memRead s.wire skip (remaining skip s) = none ∧ execDecode skip s = .fault .unwrittenByte) ∨
          ∃ b, (shapeOfWord0 (w16 first 0)).headerLength ≤ remaining skip s ∧
            memRead s.wire skip (remaining skip s) = some b ∧ execDecode skip s = .next (storeDecoded b s)) := by
  unfold execDecode
  by_cases hm : remaining skip s < 4
  · exact .inl ⟨hm, by simp [hm, raise]⟩
  · simp only [hm, if_false]
    obtain ⟨hp, hw⟩ | ⟨first, hp, hw⟩ := withOctets_cases s.wire skip 2 _ <;> rw [hw]
    · exact .inr (.inl ⟨by omega, hp, rfl⟩)
    · refine .inr (.inr ⟨first, by omega, hp, ?_⟩)
      by_cases hh : remaining skip s < (shapeOfWord0 (w16 first 0)).headerLength
      · exact .inl ⟨hh, by simp [hh, raise]⟩
      · simp only [hh, if_false]
        obtain ⟨hb, hw⟩ | ⟨b, hb, hw⟩ := withOctets_cases s.wire skip (remaining skip s) _ <;> rw [hw]
        · exact .inr (.inl ⟨by omega, hb, rfl⟩)
        · exact .inr (.inr ⟨b, by omega, hb, rfl⟩)

/-- How `CHECKSUM` ends: an invalid field, an unwritten payload octet, or the result written. -/
theorem execChecksum_cases (s : State) :
    (∃ i, firstInvalid checksumChecked s.f = some i ∧
        execChecksum s = .next (s.finish .invalidFieldWidth (fieldNumber i))) ∨
      (firstInvalid checksumChecked s.f = none ∧ memRead s.pay 0 s.payLen.toNat = none ∧
        execChecksum s = .fault .unwrittenByte) ∨
      ∃ p, firstInvalid checksumChecked s.f = none ∧ memRead s.pay 0 s.payLen.toNat = some p ∧
        execChecksum s = .next ((s.setCsumResult (zext32 (checksum s.f p))).finish .ok 0) := by
  unfold execChecksum
  cases hf : firstInvalid checksumChecked s.f with
  | some i => exact .inl ⟨i, rfl, rfl⟩
  | none =>
    obtain ⟨hp, hw⟩ | ⟨p, hp, hw⟩ := withOctets_cases s.pay 0 s.payLen.toNat _ 
    · exact .inr (.inl ⟨rfl, hp, hw⟩)
    · exact .inr (.inr ⟨p, rfl, hp, hw⟩)

end Sys2Proof.Machine
end

