-- ==== Sys2Proof/Laws/Decode.lean ====
section
/-! SUPPORT. The fields of a command word (R50). -/

namespace Sys2Proof

@[simp] theorem opField_commandWord (skip : Half) (op : Byte) : opField (commandWord skip op) = op := by
  ext i hi
  simp [opField, commandWord, BitVec.getLsbD_eq_getElem hi, show i < 16 by omega, show i < 32 by omega]

@[simp] theorem rsvField_commandWord (skip : Half) (op : Byte) : rsvField (commandWord skip op) = 0 := by
  ext i hi
  simp [rsvField, commandWord]
  omega

@[simp] theorem skipField_commandWord (skip : Half) (op : Byte) : skipField (commandWord skip op) = skip := by
  ext i hi
  simp [skipField, commandWord, BitVec.getLsbD_eq_getElem hi, show 16 + i < 32 by omega,
    BitVec.getLsbD_of_ge op (16 + i) (by omega)]

theorem opField_toNat (w : Word) : (opField w).toNat = w.toNat % 0x100 := by
  simp [opField]

theorem rsvField_toNat (w : Word) : (rsvField w).toNat = w.toNat / 0x100 % 0x100 := by
  simp [rsvField, Nat.shiftRight_eq_div_pow]

theorem skipField_toNat (w : Word) : (skipField w).toNat = w.toNat / 0x10000 := by
  have := w.isLt
  simp [skipField, Nat.shiftRight_eq_div_pow]
  omega

/-- A word with a zero `RSV` is the word of its `SKIP` and `OP` fields (R50). -/
theorem commandWord_fields (w : Word) (h : rsvField w = 0) : commandWord (skipField w) (opField w) = w := by
  ext i hi
  have mid : i - 8 < 8 → w.getLsbD (8 + (i - 8)) = false := by
    simpa [rsvField] using congrArg (fun v => BitVec.getLsbD v (i - 8)) h
  simp only [commandWord, skipField, opField, BitVec.getElem_or, BitVec.getElem_shiftLeft, BitVec.getElem_setWidth,
    BitVec.getLsbD_extractLsb', Nat.zero_add]
  rw [← BitVec.getLsbD_eq_getElem hi]
  by_cases h1 : i < 8
  · simp [h1, show i < 16 by omega]
  · by_cases h2 : i < 16
    · rw [show 8 + (i - 8) = i by omega] at mid
      simp [h1, h2, mid (by omega)]
    · simp [h1, h2, show 16 + (i - 16) = i by omega]
      omega

end Sys2Proof
end

