-- ==== Sys2Proof/Laws/Flags.lean ====
section
/-! SUPPORT. `STATUS` words (R12 to R14): as numbers, and field by field. -/

namespace Sys2Proof.Machine

/-- R12: `INFO` in the upper half, `CODE` in the low bits. -/
theorem statusWord_eq (c : Code) {n : Nat} (h : n < 0x10000) :
    statusWord c n = BitVec.ofNat 32 (n * 0x10000 + codeNumber c) := by
  apply BitVec.eq_of_toNat_eq
  have hc : codeNumber c < 5 := by cases c <;> decide
  simp only [statusWord, BitVec.toNat_or, BitVec.toNat_shiftLeft, BitVec.toNat_setWidth, BitVec.toNat_ofNat]
  rw [show n % 2 ^ 16 % 2 ^ 32 = n by omega, show codeNumber c % 2 ^ 32 = codeNumber c by omega, Nat.shiftLeft_eq,
    Nat.mod_eq_of_lt (a := n * 2 ^ 16) (by omega), Nat.mul_comm, ← Nat.two_pow_add_eq_or_of_lt (by omega)]
  omega

@[simp] theorem statusWord_ok : statusWord .ok 0 = 0#32 := by decide

@[simp] theorem statusCode_statusWord (c : Code) (n : Nat) : (statusCode (statusWord c n)).toNat = codeNumber c := by
  have h : BitVec.extractLsb' 0 4 (BitVec.setWidth 32 (BitVec.ofNat 16 n) <<< 16) = 0 := by
    ext i hi
    simp
    omega
  have h' : statusCode (statusWord c n) = BitVec.extractLsb' 0 4 (BitVec.ofNat 32 (codeNumber c)) := by
    rw [statusCode, statusWord, BitVec.extractLsb'_or, h]
    exact BitVec.zero_or
  rw [h']
  cases c <;> rfl

@[simp] theorem statusReserved_statusWord (c : Code) (n : Nat) : statusReserved (statusWord c n) = 0 := by
  have h : BitVec.extractLsb' 4 12 (BitVec.setWidth 32 (BitVec.ofNat 16 n) <<< 16) = 0 := by
    ext i hi
    simp
    omega
  rw [statusReserved, statusWord, BitVec.extractLsb'_or, h]
  cases c <;> rfl

theorem statusInfo_statusWord (c : Code) {n : Nat} (h : n < 0x10000) : (statusInfo (statusWord c n)).toNat = n := by
  have h' : statusInfo (statusWord c n) = BitVec.ofNat 16 ((statusWord c n).toNat / 0x10000) := by
    apply BitVec.eq_of_toNat_eq
    simp [statusInfo, Nat.shiftRight_eq_div_pow]
  have hc : codeNumber c < 5 := by cases c <;> decide
  rw [h', statusWord_eq c h, BitVec.toNat_ofNat, BitVec.toNat_ofNat]
  omega

/-- A word with an `INFO` that goes with its code is a legal `STATUS`. -/
theorem statusLegal_statusWord (c : Code) {n : Nat} (h : n < 0x10000) (hf : infoFits c n = true) :
    statusLegal (statusWord c n) = true := by
  rw [statusLegal, statusReserved_statusWord, statusCode_statusWord, statusInfo_statusWord c h]
  cases c <;> simp [hf, codeNumber]

/-- Only `OK` gives a `STATUS` of 0. -/
theorem eq_ok_of_statusWord {c : Code} {n : Nat} (h : statusWord c n = 0#32) : c = .ok := by
  have := statusCode_statusWord c n
  rw [h] at this
  cases c <;> simp [codeNumber, statusCode] at this ⊢

end Sys2Proof.Machine
end

