-- ==== Sys2Proof/Laws/Operands.lean ====
section
/-! SUPPORT. Field checks (R19, R103), header lengths (R60) and octet order (R37). -/

namespace Sys2Proof.Machine

/-! ### Field checks -/

theorem fieldNumber_le (i : FieldIndex) : fieldNumber i ≤ 9 := by cases i <;> decide

@[simp] theorem fieldValid_eq_true (i : FieldIndex) (v : Word) : fieldValid i v = true ↔ v.toNat ≤ fieldMax i := by
  simp [fieldValid]

/-- No register of the list fails. -/
theorem firstInvalid_eq_none {is : List FieldIndex} {f : Fields} :
    firstInvalid is f = none ↔ ∀ i ∈ is, (f.get i).toNat ≤ fieldMax i := by
  simp [firstInvalid, fieldValid]

/-- The register named is of the list, and fails. -/
theorem firstInvalid_eq_some {is : List FieldIndex} {f : Fields} {i : FieldIndex} (h : firstInvalid is f = some i) :
    i ∈ is ∧ fieldMax i < (f.get i).toNat := by
  have h' := List.find?_some h
  exact ⟨List.mem_of_find?_eq_some h, by simpa [fieldValid] using h'⟩

/-- What `ENCODE`'s checks pass (R71). -/
theorem encodeChecked_pass (f : Fields) : firstInvalid (encodeChecked f) f = none ↔ encodeFieldsLegal f := by
  rw [firstInvalid_eq_none]
  by_cases h : f.cp = 1#32 <;> simp [encodeChecked, h, Fields.get, fieldMax, encodeFieldsLegal]

/-- What `CHECKSUM`'s checks pass (R96). -/
theorem checksumChecked_pass (f : Fields) : firstInvalid checksumChecked f = none ↔ checksumFieldsLegal f := by
  rw [firstInvalid_eq_none]
  simp [checksumChecked, Fields.get, fieldMax, checksumFieldsLegal]

/-! ### Header lengths -/

/-- R60: the four lengths a header can have. -/
theorem headerLength_cases (sh : Shape) :
    sh.headerLength = 4 ∨ sh.headerLength = 8 ∨ sh.headerLength = 12 ∨ sh.headerLength = 16 := by
  rcases sh with ⟨_ | _, _ | _, _ | _⟩ <;> simp [Shape.headerLength, partLength]

/-- A legal flag counts its part's octets. -/
theorem partLength_flag {v : Word} (h : v.toNat ≤ 1) : partLength (v = 1#32) = 4 * v.toNat := by
  have : v.toNat = 0 ∨ v.toNat = 1 := by omega
  rcases this with e | e
  · obtain rfl : v = 0#32 := BitVec.eq_of_toNat_eq e
    simp [partLength]
  · obtain rfl : v = 1#32 := BitVec.eq_of_toNat_eq e
    simp [partLength]

/-! ### Octet order -/

theorem octetPair_toNat (hi lo : Byte) : (octetPair hi lo).toNat = hi.toNat * 0x100 + lo.toNat := by
  have := hi.isLt
  have := lo.isLt
  simp only [octetPair, BitVec.toNat_or, BitVec.toNat_shiftLeft, BitVec.toNat_setWidth, Nat.shiftLeft_eq]
  rw [show hi.toNat % 2 ^ 16 * 2 ^ 8 % 2 ^ 16 = 2 ^ 8 * hi.toNat by omega, show lo.toNat % 2 ^ 16 = lo.toNat by omega,
    ← Nat.two_pow_add_eq_or_of_lt (by omega)]
  omega

theorem halfPair_toNat (hi lo : Half) : (halfPair hi lo).toNat = hi.toNat * 0x10000 + lo.toNat := by
  have := hi.isLt
  have := lo.isLt
  simp only [halfPair, BitVec.toNat_or, BitVec.toNat_shiftLeft, BitVec.toNat_setWidth, Nat.shiftLeft_eq]
  rw [show hi.toNat % 2 ^ 32 * 2 ^ 16 % 2 ^ 32 = 2 ^ 16 * hi.toNat by omega, show lo.toNat % 2 ^ 32 = lo.toNat by omega,
    ← Nat.two_pow_add_eq_or_of_lt (by omega)]
  omega

/-- `BE16` of a received pair is the pair. -/
theorem be16_octetPair (hi lo : Byte) : be16 (octetPair hi lo) = [hi, lo] := by
  have := hi.isLt
  have := lo.isLt
  have h : (octetPair hi lo).extractLsb' 8 8 = hi := by
    apply BitVec.eq_of_toNat_eq
    rw [BitVec.extractLsb'_toNat, octetPair_toNat, Nat.shiftRight_eq_div_pow]
    omega
  have h' : (octetPair hi lo).extractLsb' 0 8 = lo := by
    apply BitVec.eq_of_toNat_eq
    rw [BitVec.extractLsb'_toNat, octetPair_toNat, Nat.shiftRight_eq_div_pow]
    omega
  rw [be16, h, h']

/-- The pair of `BE16` is the value. -/
theorem octetPair_be16 (v : Half) : octetPair (v.extractLsb' 8 8) (v.extractLsb' 0 8) = v := by
  have := v.isLt
  apply BitVec.eq_of_toNat_eq
  rw [octetPair_toNat, BitVec.extractLsb'_toNat, BitVec.extractLsb'_toNat, Nat.shiftRight_eq_div_pow,
    Nat.shiftRight_eq_div_pow]
  omega

theorem halfPair_halves (v : Word) : halfPair (highHalf v) (lowHalf v) = v := by
  have := v.isLt
  apply BitVec.eq_of_toNat_eq
  rw [halfPair_toNat]
  simp [highHalf, lowHalf, Nat.shiftRight_eq_div_pow]
  omega

/-- `W16` reads back what `BE16` put at its place. -/
theorem w16_be16 (q r : List Byte) (v : Half) : w16 (q ++ (be16 v ++ r)) q.length = v := by
  have h : (q ++ (be16 v ++ r))[q.length]? = some (v.extractLsb' 8 8) := by
    rw [List.getElem?_append_right (Nat.le_refl _), Nat.sub_self]
    rfl
  have h' : (q ++ (be16 v ++ r))[q.length + 1]? = some (v.extractLsb' 0 8) := by
    rw [List.getElem?_append_right (Nat.le_add_right _ _), Nat.add_sub_cancel_left]
    rfl
  simp only [w16, List.getD_eq_getElem?_getD]
  rw [h, h']
  exact octetPair_be16 v

theorem zext32_eq (v : Half) : zext32 v = BitVec.ofNat 32 v.toNat := by
  apply BitVec.eq_of_toNat_eq
  simp [zext32]

theorem lowHalf_eq (v : Word) : lowHalf v = BitVec.ofNat 16 v.toNat := by
  apply BitVec.eq_of_toNat_eq
  simp [lowHalf]

end Sys2Proof.Machine
end

