-- ==== Sys2Proof/Laws/PerInstr.lean ====
section
/-! SUPPORT. Facts stated command by command. -/

namespace Sys2Proof.Laws

/-- The word of a command has a zero `RSV`, and matches the command's own row of the opcode table (R50, R51). -/
def RowMatch.Statement (i : Instr) : Prop := rsvField (encode i) = 0 ∧ (opcodeRow i).Matches (encode i)

theorem RowMatch.encode : RowMatch.Statement .encode := by
  exact ⟨by decide, by decide⟩

theorem RowMatch.decode (skip : Nat) : RowMatch.Statement (.decode skip) := by
  refine ⟨by simp [Sys2Proof.encode], ?_⟩
  simp only [OpcodeRow.Matches, opcodeRow, Sys2Proof.encode, commandWord]
  generalize BitVec.ofNat 16 skip = k
  ext i hi
  simp only [BitVec.getElem_and, BitVec.getElem_or]
  interval_cases i <;> simp

theorem RowMatch.checksum : RowMatch.Statement .checksum := by
  exact ⟨by decide, by decide⟩

end Sys2Proof.Laws
end

