-- ==== Sys2Proof/Laws/Port.lean ====
section
/-! SUPPORT. Everything the host port can do (R32 to R35, R115), said once. -/

namespace Sys2Proof.Machine

/-- A register access goes through only as a whole word at a mapped offset (R34). -/
theorem resolveReg_ok {o : Nat} {w : Width} {r : Reg} (h : resolveReg o w = .ok r) : w = .word ∧ regAt o = some r := by
  unfold resolveReg at h
  split at h
  · cases h
  · next hw =>
    split at h
    · cases h
    · split at h
      · next hr =>
        cases h
        exact ⟨by simpa using hw, hr⟩
      · cases h

/-- `CMD` is at offset 0 only (R31). -/
theorem regAt_cmd {o : Nat} (h : regAt o = some .cmd) : o = 0 := by
  unfold regAt at h
  split at h <;> cases h
  rfl

/-- What an input other than a `CMD` write and reset can do: set the reply, and then a field register, a length within
the buffers, one octet, or nothing. -/
def AccessEffect (s t : State) : Prop :=
  ∃ r, t = s.setReply r ∨ (∃ f, t = (s.setReply r).setFields f) ∨
    (∃ v : Word, v.toNat ≤ s.cfg.bufMax ∧ (t = (s.setReply r).setWireLen v ∨ t = (s.setReply r).setPayLen v)) ∨
    ∃ a b, a < s.cfg.bufMax ∧
      (t = (s.setReply r).setWire (s.wire.write a b) ∨ t = (s.setReply r).setPay (s.pay.write a b))

/-- Everything an input can do when the block goes on: reset, a command executed, an illegal word reported, or an
access. -/
theorem perform_cases {i : Input} {s t : State} (h : perform i s = .next t) :
    (i = .reset ∧ t = s.takeReset) ∨
      (∃ w j, i = .host (.writeReg 0 .word w) ∧ decodeWord w = .command j ∧
        exec j ((s.setReply .nothing).setCmd w) = .next t) ∨
      (∃ w y, i = .host (.writeReg 0 .word w) ∧ decodeWord w = .illegal y ∧
        t = ((s.setReply .nothing).setCmd w).finish .illegalCommand 0) ∨
      ((∀ w, i ≠ .host (.writeReg 0 .word w)) ∧ i ≠ .reset ∧ AccessEffect s t) := by
  cases i with
  | reset =>
    simp only [perform] at h
    cases h
    exact .inl ⟨rfl, rfl⟩
  | host a =>
    right
    cases a with
    | readReg o w =>
      simp only [perform, hostAction] at h
      split at h <;> cases h
      exact .inr (.inr ⟨by simp, by simp, _, .inl rfl⟩)
    | writeReg o w v =>
      simp only [perform, hostAction] at h
      split at h
      · next r hr =>
        obtain ⟨rfl, hm⟩ := resolveReg_ok hr
        by_cases ho : o = 0
        · subst ho
          cases hm
          simp only [writeReg, issue] at h
          split at h
          · next hd => exact .inl ⟨v, _, rfl, hd, h⟩
          · next hd =>
            cases h
            exact .inr (.inl ⟨v, _, rfl, hd, rfl⟩)
        · refine .inr (.inr ⟨by simp [ho], by simp, .nothing, ?_⟩)
          cases r with
          | cmd => exact absurd (regAt_cmd hm) ho
          | status | csumResult =>
            cases h
            exact .inl rfl
          | wireLen =>
            simp only [writeReg, writeLength] at h
            split at h <;> cases h
            next hv => exact .inr (.inr (.inl ⟨v, hv, .inl rfl⟩))
          | payLen =>
            simp only [writeReg, writeLength] at h
            split at h <;> cases h
            next hv => exact .inr (.inr (.inl ⟨v, hv, .inr rfl⟩))
          | field i =>
            cases h
            exact .inr (.inl ⟨_, rfl⟩)
      · cases h
    | writeOctet b a v =>
      simp only [perform, hostAction, writeOctet] at h
      split at h <;> cases h
      next ha =>
        refine .inr (.inr ⟨by simp, by simp, .nothing, .inr (.inr (.inr ⟨a, v, ha, ?_⟩))⟩)
        cases b
        · exact .inl rfl
        · exact .inr rfl
    | readOctet b a =>
      simp only [perform, hostAction, readOctet] at h
      split at h
      · split at h <;> cases h
        exact .inr (.inr ⟨by simp, by simp, _, .inl rfl⟩)
      · cases h
    | other => cases h

end Sys2Proof.Machine
end

