-- ==== Sys2Proof/Tests/Slice0.lean ====
section
/-! SUPPORT. Tests: the values come from spec/95_test_vectors.md (the vector is named) or from the rule named; and, for
each statement of Certificates/Slice0/Obligations.lean that has hypotheses, a state and operands that meet them. -/

namespace Sys2Proof.Tests

open Sys2Proof Sys2Proof.Machine

/-! ### Small states -/

/-- Octets placed from index `a` on. -/
def octetsAt (a : Nat) : List Byte → Memory
  | [] => []
  | b :: r => (a, b) :: octetsAt (a + 1) r

/-- The reset state of a block with `BUF_MAX = n`, with a header and a payload. -/
def withHeader (n : Nat) (f : Fields) (p : List Byte) : State :=
  { State.resetWith ⟨n, 0⟩ with f := f, pay := octetsAt 0 p, payLen := BitVec.ofNat 32 p.length }

/-- The reset state of a block with `BUF_MAX = 128`, with a received image. -/
def withImage (b : List Byte) : State :=
  { State.resetWith ⟨128, 0⟩ with wire := octetsAt 0 b, wireLen := BitVec.ofNat 32 b.length }

/-- The reset state of a block with `BUF_MAX = 16`, about to take an input. -/
def withInput (i : Input) : State := { State.resetWith ⟨16, 0⟩ with pending := [i] }

/-- The result is a next state of which `P` holds. -/
def ends (P : State → Bool) : Result → Bool
  | .next t => P t
  | _ => false

/-- The result is a fault. -/
def faults : Result → Bool
  | .fault _ => true
  | _ => false

/-- The result is a refusal. -/
def refuses : Result → Bool
  | .refused _ => true
  | _ => false

theorem next_of_ends {P : State → Bool} {r : Result} (h : ends P r = true) : ∃ t, r = .next t ∧ P t = true := by
  cases r with
  | next t => exact ⟨t, rfl, h⟩
  | fault e => cases h
  | refused e => cases h

theorem fault_of_faults {r : Result} (h : faults r = true) : ∃ e, r = .fault e := by
  cases r with
  | next t => cases h
  | fault e => exact ⟨e, rfl⟩
  | refused e => cases h

theorem refused_of_refuses {r : Result} (h : refuses r = true) : ∃ e, r = .refused e := by
  cases r with
  | next t => cases h
  | fault e => cases h
  | refused e => exact ⟨e, rfl⟩

/-- B1's header. -/
def plainHeader : Fields := ⟨0, 0, 0, 0, 0, 0x0800, 0, 0, 0, 0⟩
/-- B2's and B8's header. -/
def checkedHeader : Fields := ⟨1, 0, 0, 0, 0, 0x0800, 0, 0, 0, 0⟩
/-- B5's header: every field at its greatest value, `F_CSUM` aside. -/
def fullHeader : Fields := ⟨1, 1, 1, 0x1FF, 7, 0xFFFF, 0, 0xFFFF, 0xFFFFFFFF, 0xFFFFFFFF⟩
/-- B6's header. -/
def keyedHeader : Fields := ⟨1, 1, 1, 0, 0, 0x0800, 0, 0, 0x01020304, 0x00000001⟩
/-- A header by the registers the commands check; the others 0. -/
def headerOf (cp kp sp res0 ver proto res1 : Word) : Fields := ⟨cp, kp, sp, res0, ver, proto, 0, res1, 0, 0⟩
/-- B6's start state. -/
def stateB6 : State := withHeader 128 keyedHeader [0x45, 0x00, 0x00, 0x14]
/-- B6's image. -/
def imageB6 : List Byte :=
  [0xB0, 0x00, 0x08, 0x00, 0xFE, 0xE3, 0x00, 0x00, 0x01, 0x02, 0x03, 0x04, 0x00, 0x00, 0x00, 0x01, 0x45, 0x00, 0x00, 0x14]
/-- B8's start state. -/
def stateB8 : State := withHeader 128 checkedHeader [0xAB]
/-- B17's start state. -/
def stateB17 : State := withHeader 128 ⟨0, 0, 0, 0x200, 0, 0x0800, 0, 0, 0, 0⟩ [0x45]
/-- B22's start state. -/
def stateB22 : State := withHeader 128 ⟨1, 0, 0, 0, 0, 0x0800, 0, 0x10000, 0, 0⟩ []
/-- B26's start state. -/
def stateB26 : State := { withHeader 128 plainHeader [0x45] with payLen := 2 }
/-- C3's start state. -/
def stateC3 : State := withImage [0x20, 0x00, 0x08, 0x00, 0x00, 0x00, 0x00]
/-- C7's start state. -/
def stateC7 : State := withImage imageB6
/-- C9's start state. -/
def stateC9 : State := withImage [0x40, 0x00, 0x08, 0x00, 0xAA]
/-- C10's start state. -/
def stateC10 : State := withImage [0x80, 0x00, 0x08, 0x00, 0x12, 0x34, 0x56, 0x78, 0x99]
/-- C15's start state. -/
def stateC15 : State := { withImage [0x00, 0x00, 0x08, 0x00] with wireLen := 5 }
/-- D5's start state. -/
def stateD5 : State := withHeader 128 ⟨0, 1, 1, 0, 0, 0x0800, 0, 0, 0xDEADBEEF, 0x00000001⟩ []
/-- D8's start state. -/
def stateD8 : State := withHeader 128 ⟨0, 0, 0, 0, 0, 0, 0, 0, 0, 0⟩ [0x12, 0x34, 0x56]

/-! ### Well-formed instructions -/

/-- R50: `SKIP` has 16 bits. -/
theorem test_wf_refuses_wide_skip : ¬ (Instr.decode 0x10000).wf ∧ (Instr.decode 0xFFFF).wf := by decide

/-! ### Command words: A1 to A11 -/

theorem test_decode_command_words :
    decodeWord 0b00000000000000000000000000000001 = .command .encode ∧
      decodeWord 0b00000000000000000000000000000010 = .command (.decode 0) ∧
      decodeWord 0b00000000000101000000000000000010 = .command (.decode 20) ∧
      decodeWord 0b11111111111111110000000000000010 = .command (.decode 65535) ∧
      decodeWord 0b00000000000000000000000000000011 = .command .checksum := by decide

theorem test_decode_illegal_words :
    decodeWord 0x00000000 = .illegal .unknownOp ∧ decodeWord 0x00000004 = .illegal .unknownOp ∧
      decodeWord 0x000000FF = .illegal .unknownOp ∧ decodeWord 0x00000102 = .illegal .reservedNonzero ∧
      decodeWord 0x00010001 = .illegal .skipNonzero ∧ decodeWord 0x00010003 = .illegal .skipNonzero := by decide

theorem test_encode_words :
    encode .encode = 0x00000001 ∧ encode (.decode 20) = 0x00140002 ∧ encode .checksum = 0x00000003 := by decide

theorem test_table_word : decodeTableWord 32 0x00140002 = some (.decode 20) ∧ decodeTableWord 32 0x00010001 = none := by
  decide

/-- A10: the word of the illegal command is in `CMD`, and nothing else changes. -/
theorem test_illegal_word_finishes :
    ends (fun t => t = { stateB8 with cmd := 0x00010001, status := 0x00000003 })
      (hostAction (.writeReg 0x00 .word 0x00010001) stateB8) = true := by decide

/-! ### The commands -/

/-- B6. -/
theorem test_encode_B6 :
    ends (fun t => t.status = 0 ∧ t.wireLen = 20 ∧ memRead t.wire 0 20 = some imageB6) (exec .encode stateB6) = true := by
  decide

/-- B5: bit 14 of word 0 stays 0. -/
theorem test_encode_B5 :
    ends (fun t => t.wireLen = 16 ∧ memRead t.wire 0 6 = some [0xBF, 0xFF, 0xFF, 0xFF, 0x40, 0x00])
      (exec .encode (withHeader 128 fullHeader [])) = true := by decide

/-- C11: the fields of word 0 are cut at the right bits. -/
theorem test_decode_C11 :
    ends (fun t => t.f = ⟨0, 0, 0, 0xFF, 7, 0x1234, 0, 0, 0, 0⟩ ∧ t.payLen = 1 ∧ t.pay = [(0, 0xEE)])
      (exec (.decode 0) (withImage [0x07, 0xFF, 0x12, 0x34, 0xEE])) = true := by decide

/-- C7: every optional part from its own place. -/
theorem test_decode_C7 :
    ends
      (fun t =>
        t.f = ⟨1, 1, 1, 0, 0, 0x0800, 0xFEE3, 0, 0x01020304, 1⟩ ∧ t.payLen = 4 ∧
          memRead t.pay 0 4 = some [0x45, 0x00, 0x00, 0x14])
      (exec (.decode 0) stateC7) = true := by decide

/-- D5: a carry that is folded back, and `F_CP = 0`. -/
theorem test_checksum_D5 :
    ends (fun t => t.csumResult = 0x00002A61 ∧ t.status = 0) (exec .checksum stateD5) = true := by decide

/-- D8: an odd payload. -/
theorem test_checksum_D8 :
    ends (fun t => t.csumResult = 0x000097CB ∧ t.status = 0) (exec .checksum stateD8) = true := by decide

/-! ### Steps -/

/-- D2 from reset, by a step; the word of a `DECODE` whose `SKIP` passes the empty image gives `TruncatedHeader(4)`
(R81). -/
theorem test_step_runs_fetched_words :
    ends (fun t => t.csumResult = 0x0000F7FF ∧ t.cmd = 0x00000003 ∧ t.pending = []) (step (State.reset.withFetchWord 32 3)) =
        true ∧
      ends (fun t => t.status = 0x00040002) (step (State.reset.withFetchWord 32 0x00140002)) = true := by decide

/-- R34 and R24: a refused step, and its mark. -/
theorem test_refused_step_marks :
    refuses (step (withInput (.host (.writeReg 0x0C .word 17)))) = true ∧
      (stickyStep (withInput (.host (.writeReg 0x0C .word 17)))).refusedMark = true ∧
      (stickyStep (withInput (.host (.writeReg 0x0C .word 16)))).refusedMark = false := by decide

/-! ### Written lines -/

/-- R53, R54. -/
theorem test_line_text :
    (Line.decode 20).text = "DECODE 20" ∧ (Line.wr (.field .proto) 0x0800).text = "WR F_PROTO, 2048" ∧
      (Line.wb .pay 59 0x3B).text = "WB PAY[59], 59" := by decide

/-! ### Witnesses: states and operands that meet the hypotheses of the statements -/

theorem test_witness_DecodeAndEncodeAgree :
    (Instr.decode 0xFFFF).wf ∧ decodeWord 0xFFFF0002 = .command (.decode 0xFFFF) := by decide

theorem test_witness_WordSpellsACommandIffOneRowMatches : decodeWord 0x00140002 = .command (.decode 20) := by decide

theorem test_witness_IllegalWordsFinishWithIllegalCommand : ∃ why, decodeWord 0x00000102 = .illegal why :=
  ⟨_, rfl⟩

theorem test_witness_StepRunsTheDecodedCommand :
    (withInput (.host (.writeReg 0x00 .word 0x00000001))).pending = [.host (.writeReg 0x00 .word 0x00000001)] ∧
      decodeWord 0x00000001 = .command .encode ∧ State.reset.pending = [] := by decide

theorem test_witness_FetchedTableWordRuns : decodeTableWord 32 0xFFFF0002 = some (.decode 65535) := by decide

/-- The clauses on a length meet at `BUF_MAX`, here 16. -/
theorem test_witness_RegisterWritesSetTheRegister :
    (16 : Word).toNat ≤ (withHeader 16 plainHeader []).cfg.bufMax ∧
      (withHeader 16 plainHeader []).cfg.bufMax < (17 : Word).toNat := by decide

theorem test_witness_ActionsOutsideTheContractAreRefused :
    Width.half ≠ .word ∧ 0x15 % 4 ≠ 0 ∧ 0x100 ≤ 0x100 ∧ 0x48 ≤ 0x48 ∧
      (withHeader 16 plainHeader []).cfg.bufMax < (17 : Word).toNat ∧ (withHeader 16 plainHeader []).cfg.bufMax ≤ 16 := by
  decide

theorem test_witness_ActionsOutsideTheContractAreRefused_mark :
    ∃ e, hostAction (.writeReg 0x10 .word 17) (withHeader 16 plainHeader []) = .refused e :=
  refused_of_refuses (by decide)

theorem test_witness_OctetAccessesReadAndWriteOneOctet :
    127 < stateB8.cfg.bufMax ∧ 0 < stateB8.cfg.bufMax ∧ (stateB8.buf .pay).read 0 = some 0xAB ∧
      (stateB8.buf .pay).read 127 = none := by decide

theorem test_witness_StickyMarksAreNeverCleared :
    (∃ e, perform (.host (.readOctet .wire 0)) stateB8 = .fault e) ∧
      (∃ e, perform (.host .other) stateB8 = .refused e) ∧
      (({ stateB8 with faultMark := true, refusedMark := true } : State).faultMark = true ∧
        ({ stateB8 with faultMark := true, refusedMark := true } : State).refusedMark = true) ∧
      ∃ t, perform .reset stateB8 = .next t :=
  ⟨fault_of_faults (by decide), refused_of_refuses (by decide), by decide, ⟨_, rfl⟩⟩

theorem test_witness_CommandsFaultOnUnwrittenOctets :
    encodeFieldsLegal stateB26.f ∧
      4 + 4 * stateB26.f.cp.toNat + 4 * stateB26.f.kp.toNat + 4 * stateB26.f.sp.toNat + stateB26.payLen.toNat ≤
        stateB26.cfg.bufMax ∧
      (∃ j < stateB26.payLen.toNat, stateB26.pay.read j = none) ∧ checksumFieldsLegal stateB26.f := by decide

theorem test_witness_CommandsFaultOnUnwrittenOctets_decode :
    (0 + 4 ≤ stateC15.wireLen.toNat ∧ stateC15.wire.read 0 = some 0 ∧ stateC15.wire.read 1 = some 0 ∧
        0 + 4 ≤ stateC15.wireLen.toNat ∧ 0 ≤ 4 ∧ 4 < stateC15.wireLen.toNat ∧ stateC15.wire.read 4 = none) ∧
      1 + 4 ≤ stateC15.wireLen.toNat ∧ ({ stateC15 with wire := [] } : State).wire.read 1 = none := by decide

/-- A `CMD` write that faults, and another input that does. -/
theorem test_witness_FaultsLeaveTheStateMarked :
    (∃ e, perform (.host (.writeReg 0x00 .word 0x00000001)) stateB26 = .fault e) ∧
      (∀ w : Word, Input.host (.readOctet .pay 1) ≠ .host (.writeReg 0x00 .word w)) ∧
      ∃ e, perform (.host (.readOctet .pay 1)) stateB26 = .fault e := by
  refine ⟨fault_of_faults (by decide), ?_, fault_of_faults (by decide)⟩
  rintro w ⟨⟩

theorem test_witness_EncodeCompletesWithTheImage :
    encodeFieldsLegal stateB6.f ∧
      4 + 4 * stateB6.f.cp.toNat + 4 * stateB6.f.kp.toNat + 4 * stateB6.f.sp.toNat + stateB6.payLen.toNat ≤
        stateB6.cfg.bufMax ∧
      memRead stateB6.pay 0 stateB6.payLen.toNat = some [0x45, 0x00, 0x00, 0x14] := by decide

theorem test_witness_EncodeLaysTheFieldsOutInOrder :
    stateB6.cfg.wf ∧ (∃ t, exec .encode stateB6 = .next t ∧ decide (t.status = 0#32) = true) ∧
      stateB6.f.cp = 1#32 ∧ stateB6.f.kp = 1#32 ∧ stateB6.f.sp = 1#32 ∧ 3 < stateB6.payLen.toNat :=
  ⟨by decide, next_of_ends (by decide), by decide⟩

theorem test_witness_Word0PlacesTheFlagsAndFields : encodeFieldsLegal fullHeader := by decide

/-- Each clause at the first value that fails it, with the greatest values that pass before it. -/
theorem test_witness_EncodeReportsTheLowestInvalidField :
    let a := headerOf 2 0 0 0 0 0 0
    let b := headerOf 1 2 0 0 0 0 0
    let c := headerOf 1 1 2 0 0 0 0
    let d := headerOf 1 1 1 0x200 0 0 0
    let e := headerOf 1 1 1 0x1FF 8 0 0
    let f := headerOf 1 1 1 0x1FF 7 0x10000 0
    let g := headerOf 1 1 1 0x1FF 7 0xFFFF 0x10000
    1 < a.cp.toNat ∧ (b.cp.toNat ≤ 1 ∧ 1 < b.kp.toNat) ∧ (c.cp.toNat ≤ 1 ∧ c.kp.toNat ≤ 1 ∧ 1 < c.sp.toNat) ∧
      (d.cp.toNat ≤ 1 ∧ d.kp.toNat ≤ 1 ∧ d.sp.toNat ≤ 1 ∧ 0x1FF < d.res0.toNat) ∧
      (e.cp.toNat ≤ 1 ∧ e.kp.toNat ≤ 1 ∧ e.sp.toNat ≤ 1 ∧ e.res0.toNat ≤ 0x1FF ∧ 7 < e.ver.toNat) ∧
      (f.cp.toNat ≤ 1 ∧ f.kp.toNat ≤ 1 ∧ f.sp.toNat ≤ 1 ∧ f.res0.toNat ≤ 0x1FF ∧ f.ver.toNat ≤ 7 ∧
        0xFFFF < f.proto.toNat) ∧
      g.cp = 1#32 ∧ g.kp.toNat ≤ 1 ∧ g.sp.toNat ≤ 1 ∧ g.res0.toNat ≤ 0x1FF ∧ g.ver.toNat ≤ 7 ∧
        g.proto.toNat ≤ 0xFFFF ∧ 0xFFFF < g.res1.toNat := by decide

/-- B19, B20 and B22. -/
theorem test_encode_reports_lowest_invalid :
    ends (fun t => t.status = 0x00000001) (exec .encode (withHeader 128 ⟨2, 0, 0, 0, 0, 0x0800, 0, 0, 0, 0⟩ [0x45])) = true ∧
      ends (fun t => t.status = 0x00030001)
          (exec .encode (withHeader 128 ⟨0, 0, 0, 0x200, 8, 0x10000, 0, 0, 0, 0⟩ [0x45])) = true ∧
      ends (fun t => t.status = 0x00070001) (exec .encode stateB22) = true := by decide

theorem test_witness_EncodeReportsTheLowestInvalidField_legal :
    encodeFieldsLegal stateB8.f ∧ ∃ t, exec .encode stateB8 = .next t ∧ true = true :=
  ⟨by decide, next_of_ends (P := fun _ => true) (by decide)⟩

/-- B24 and B25, at `BUF_MAX = 16`. -/
theorem test_witness_EncodeReportsExceededCapacity :
    encodeFieldsLegal keyedHeader ∧
      (withHeader 16 keyedHeader [0]).cfg.bufMax <
        4 + 4 * keyedHeader.cp.toNat + 4 * keyedHeader.kp.toNat + 4 * keyedHeader.sp.toNat +
          (withHeader 16 keyedHeader [0]).payLen.toNat ∧
      (withHeader 16 keyedHeader []).payLen.toNat + 16 ≤ (withHeader 16 keyedHeader []).cfg.bufMax := by decide

/-- An `OK` and an error, for the two clauses of the frame. -/
theorem test_witness_EncodeLeavesTheRestUnchanged :
    (∃ t, exec .encode stateB6 = .next t ∧ decide (t.status = 0#32) = true) ∧
      ∃ t, exec .encode stateB17 = .next t ∧ decide (t.status ≠ 0#32) = true :=
  ⟨next_of_ends (by decide), next_of_ends (by decide)⟩

/-- B16's header against B1's: they differ in absent fields and `F_CSUM` only. -/
theorem test_witness_EncodeIgnoresAbsentFields :
    let s := withHeader 128 ⟨0, 0, 0, 0, 0, 0x0800, 0xFFFFFFFF, 0xFFFFFFFF, 0xDEAD, 0xBEEF⟩ [0x45]
    plainHeader.cp = s.f.cp ∧ plainHeader.kp = s.f.kp ∧ plainHeader.sp = s.f.sp ∧ plainHeader.res0 = s.f.res0 ∧
      plainHeader.ver = s.f.ver ∧ plainHeader.proto = s.f.proto ∧ (s.f.cp = 1#32 → plainHeader.res1 = s.f.res1) ∧
      (s.f.kp = 1#32 → plainHeader.key = s.f.key) ∧ (s.f.sp = 1#32 → plainHeader.seq = s.f.seq) := by decide

theorem test_witness_EncodeIgnoresAbsentFields_outcomes :
    (∃ t, exec .encode stateB8 = .next t ∧ true = true) ∧ ∃ e, exec .encode stateB26 = .fault e :=
  ⟨next_of_ends (P := fun _ => true) (by decide), fault_of_faults (by decide)⟩

theorem test_witness_DecodeCompletesWithTheHeader :
    memRead stateC7.wire 0 (stateC7.wireLen.toNat - 0) = some imageB6 ∧ 4 ≤ imageB6.length ∧
      4 + 4 * ((w16 imageB6 0).toNat / 0x8000) + 4 * ((w16 imageB6 0).toNat / 0x2000 % 2) +
          4 * ((w16 imageB6 0).toNat / 0x1000 % 2) ≤ imageB6.length := by decide

/-- C3 for the second check, and the boundary of the first: a `SKIP` that leaves 3 octets. -/
theorem test_witness_DecodeReportsTruncatedHeaders :
    stateC3.wireLen.toNat < 4 + 4 ∧ 0 + 4 ≤ stateC3.wireLen.toNat ∧ stateC3.wire.read 0 = some 0x20 ∧
      stateC3.wire.read 1 = some 0x00 ∧
      stateC3.wireLen.toNat <
        0 + (4 + 4 * ((0x20 : Byte).toNat / 0x80) + 4 * ((0x20 : Byte).toNat / 0x20 % 2) +
            4 * ((0x20 : Byte).toNat / 0x10 % 2)) := by decide

/-- C12: the image behind three octets, against the image alone. -/
theorem test_witness_DecodeSkipsWithoutReading :
    let s := withImage [0x11, 0x22, 0x33, 0x00, 0x00, 0x08, 0x00, 0x99]
    (∀ a < s.wireLen.toNat, 3 ≤ a → Memory.read (octetsAt 3 [0x00, 0x00, 0x08, 0x00, 0x99]) a = s.wire.read a) ∧
      (∀ j < s.wireLen.toNat - 3, Memory.read (octetsAt 0 [0x00, 0x00, 0x08, 0x00, 0x99]) j = s.wire.read (3 + j)) ∧
      (5 : Word).toNat = s.wireLen.toNat - 3 ∧ s.wireLen.toNat < 9 := by decide

/-- C7, C3 and C15: an `OK`, an error and a fault. -/
theorem test_witness_DecodeLeavesTheRestUnchanged :
    (∃ t, exec (.decode 0) stateC7 = .next t ∧ decide (t.status = 0#32) = true) ∧
      (∃ t, exec (.decode 0) stateC3 = .next t ∧ decide (t.status ≠ 0#32) = true) ∧
      ∃ e, exec (.decode 0) stateC15 = .fault e :=
  ⟨next_of_ends (by decide), next_of_ends (by decide), fault_of_faults (by decide)⟩

theorem test_witness_DecodedFieldsAreLegal :
    ∃ t, exec (.decode 0) stateC7 = .next t ∧
      decide (t.status = 0#32 ∧ ends (fun _ => true) (exec .encode t) = true) = true :=
  next_of_ends (by decide)

theorem test_witness_Bit14IsIgnored :
    encodeFieldsLegal fullHeader ∧ stateC9.wire.read 0 = some 0x40 ∧
      ends (fun _ => true) (exec (.decode 0) stateC9) = true ∧
      stateC15.wire.read 0 = some 0x00 ∧ faults (exec (.decode 0) stateC15) = true := by decide

theorem test_witness_ChecksumCompletesWithTheResult :
    checksumFieldsLegal stateD8.f ∧ memRead stateD8.pay 0 stateD8.payLen.toNat = some [0x12, 0x34, 0x56] := by decide

/-- Each clause at the first value that fails it; the last with `F_CP = 0`. -/
theorem test_witness_ChecksumReportsTheLowestInvalidField :
    let a := headerOf 2 0 0 0 0 0 0
    let b := headerOf 1 2 0 0 0 0 0
    let c := headerOf 1 1 2 0 0 0 0
    let d := headerOf 1 1 1 0x200 0 0 0
    let e := headerOf 1 1 1 0x1FF 8 0 0
    let f := headerOf 1 1 1 0x1FF 7 0x10000 0
    let g := headerOf 0 1 1 0x1FF 7 0xFFFF 0x10000
    1 < a.cp.toNat ∧ (b.cp.toNat ≤ 1 ∧ 1 < b.kp.toNat) ∧ (c.cp.toNat ≤ 1 ∧ c.kp.toNat ≤ 1 ∧ 1 < c.sp.toNat) ∧
      (d.cp.toNat ≤ 1 ∧ d.kp.toNat ≤ 1 ∧ d.sp.toNat ≤ 1 ∧ 0x1FF < d.res0.toNat) ∧
      (e.cp.toNat ≤ 1 ∧ e.kp.toNat ≤ 1 ∧ e.sp.toNat ≤ 1 ∧ e.res0.toNat ≤ 0x1FF ∧ 7 < e.ver.toNat) ∧
      (f.cp.toNat ≤ 1 ∧ f.kp.toNat ≤ 1 ∧ f.sp.toNat ≤ 1 ∧ f.res0.toNat ≤ 0x1FF ∧ f.ver.toNat ≤ 7 ∧
        0xFFFF < f.proto.toNat) ∧
      g.cp.toNat ≤ 1 ∧ g.kp.toNat ≤ 1 ∧ g.sp.toNat ≤ 1 ∧ g.res0.toNat ≤ 0x1FF ∧ g.ver.toNat ≤ 7 ∧
        g.proto.toNat ≤ 0xFFFF ∧ 0xFFFF < g.res1.toNat := by decide

/-- D11: `F_RES1` fails although `F_CP = 0`. -/
theorem test_checksum_reports_lowest_invalid :
    ends (fun t => t.status = 0x00070001) (exec .checksum (withHeader 128 ⟨0, 0, 0, 0, 0, 0x0800, 0, 0x10000, 0, 0⟩ [])) = true := by decide

theorem test_witness_ChecksumReportsTheLowestInvalidField_legal :
    checksumFieldsLegal stateD8.f ∧ ∃ t, exec .checksum stateD8 = .next t ∧ true = true :=
  ⟨by decide, next_of_ends (P := fun _ => true) (by decide)⟩

theorem test_witness_ChecksumLeavesTheRestUnchanged :
    (∃ t, exec .checksum stateD8 = .next t ∧ decide (t.status = 0#32) = true) ∧
      ∃ t, exec .checksum stateB17 = .next t ∧ decide (t.status ≠ 0#32) = true :=
  ⟨next_of_ends (by decide), next_of_ends (by decide)⟩

theorem test_witness_ChecksumSumsTheHeaderWords : checksumFieldsLegal fullHeader := by decide

theorem test_witness_PayloadWordsPairTheOctets :
    let p : List Byte := [0x12, 0x34, 0x56]
    p[2 * 0]? = some 0x12 ∧ p[2 * 0 + 1]? = some 0x34 ∧ p.length % 2 = 1 ∧ p[p.length - 1]? = some 0x56 := by decide

theorem test_witness_FoldIsTheOnesComplementResidue : 0xFFFF ≤ 0xFFFF ∧ 0xFFFF < 0x10000 := by decide

/-- `BUF_MAX = 4`: the list has at most 10 words, so 20 bits are enough. -/
theorem test_witness_AccumulatorsAgreeWithTheFold :
    ([0x01, 0x02, 0x03, 0x04] : List Byte).length ≤ 4 ∧ 8 + (4 + 1) / 2 ≤ 2 ^ (20 - 16) := by decide

theorem test_witness_ChecksumDependsOnItsInputsOnly :
    let g : Fields := ⟨0, 0, 0, 0, 0, 0x0800, 0xFFFFFFFF, 0, 0xDEAD, 0xBEEF⟩
    g.cp = plainHeader.cp ∧ g.kp = plainHeader.kp ∧ g.sp = plainHeader.sp ∧ g.res0 = plainHeader.res0 ∧
      g.ver = plainHeader.ver ∧ g.proto = plainHeader.proto ∧ g.res1 = plainHeader.res1 ∧
      (plainHeader.kp = 1#32 → g.key = plainHeader.key) ∧ (plainHeader.sp = 1#32 → g.seq = plainHeader.seq) := by decide

theorem test_witness_OddPayloadsPadWithZero : ([0xAB] : List Byte).length % 2 = 1 := by decide

theorem test_witness_OctetOrderIsBigEndian :
    imageB6[4]? = some 0xFE ∧ imageB6[4 + 1]? = some 0xE3 := by decide

theorem test_witness_EncodeThenDecodeGivesTheHeaderBack :
    stateB6.cfg.wf ∧ (∃ t, exec .encode stateB6 = .next t ∧ decide (t.status = 0#32) = true) ∧ stateB6.f.cp = 1#32 ∧
      (∃ t, exec .encode (withHeader 128 plainHeader [0x45]) = .next t ∧ decide (t.status = 0#32) = true) ∧
      plainHeader.cp = 0#32 :=
  ⟨by decide, next_of_ends (by decide), by decide, next_of_ends (by decide), by decide⟩

/-- C10: the received checksum is not the one `ENCODE` sends. -/
theorem test_witness_DecodeThenEncodeGivesTheImageBack :
    stateC10.wireLen.toNat ≤ stateC10.cfg.bufMax ∧
      ∃ t, exec (.decode 0) stateC10 = .next t ∧ decide (t.status = 0#32 ∧ t.f.cp = 1#32) = true :=
  ⟨by decide, next_of_ends (by decide)⟩

theorem test_witness_EncodedImagesVerify :
    stateB8.cfg.wf ∧ stateB8.f.cp = 1#32 ∧ ∃ t, exec .encode stateB8 = .next t ∧ decide (t.status = 0#32) = true :=
  ⟨by decide, by decide, next_of_ends (by decide)⟩

theorem test_witness_ReceiveSideTestsAgree :
    stateC7.wireLen.toNat ≤ stateC7.cfg.bufMax ∧ memRead stateC7.wire 0 (stateC7.wireLen.toNat - 0) = some imageB6 ∧
      (w16 imageB6 0).getLsbD 14 = false ∧
      ∃ t, exec (.decode 0) stateC7 = .next t ∧
        decide
          (t.status = 0#32 ∧ t.f.cp = 1#32 ∧ ends (fun _ => true) (exec .checksum t) = true ∧
            ends (fun v => v.status = 0#32) (exec .encode t) = true) = true :=
  ⟨by decide, by decide, by decide, next_of_ends (by decide)⟩

theorem test_witness_StepKeepsTheInvariant :
    (withInput (.host (.writeOctet .pay 15 0xFF))).Inv ∧
      ∃ t, step (withInput (.host (.writeOctet .pay 15 0xFF))) = .next t ∧ true = true :=
  ⟨by decide, next_of_ends (P := fun _ => true) (by decide)⟩

theorem test_witness_RecordedStepsKeepTheInvariant : (withInput (.host .other)).Inv := by decide

theorem test_witness_PowerOnStateHasTheInvariant :
    (⟨4, 0⟩ : Config).wf ∧ (⟨0xFFFFFFFF, 0⟩ : Config).wf ∧ ¬ (⟨3, 0⟩ : Config).wf := by decide

theorem test_witness_ErrorsWriteStatusOnly :
    (∃ t, exec .encode stateB17 = .next t ∧ decide ((statusCode t.status).toNat ≠ 0) = true) ∧
      ∃ t, hostAction (.writeReg 0x00 .word 0x00000001) stateB17 = .next t ∧
        decide ((statusCode t.status).toNat ≠ 0) = true :=
  ⟨next_of_ends (by decide), next_of_ends (by decide)⟩

theorem test_witness_CommandsReportTheirOwnOutcomes :
    (∃ t, exec .encode stateB17 = .next t ∧ true = true) ∧ (∃ t, exec (.decode 0) stateC3 = .next t ∧ true = true) ∧
      ∃ t, exec .checksum stateD5 = .next t ∧ true = true :=
  ⟨next_of_ends (P := fun _ => true) (by decide), next_of_ends (P := fun _ => true) (by decide),
    next_of_ends (P := fun _ => true) (by decide)⟩

/-- A write of `STATUS` is no `CMD` write, and no reset. -/
theorem test_witness_StatusIsWrittenByCommandsAndResetOnly :
    (∃ t, perform (.host (.writeReg 0x04 .word 0xFFFFFFFF)) stateB8 = .next t) ∧
      (∀ w, Input.host (.writeReg 0x04 .word 0xFFFFFFFF) ≠ .host (.writeReg 0x00 .word w)) ∧
      Input.host (.writeReg 0x04 .word 0xFFFFFFFF) ≠ .reset := by
  refine ⟨⟨_, rfl⟩, ?_, ?_⟩
  · rintro w ⟨⟩
  · rintro ⟨⟩

theorem test_witness_CsumResultIsWrittenByChecksumAndResetOnly :
    (∃ t, perform (.host (.writeReg 0x00 .word 0x00000003)) stateD5 = .next t ∧ true = true) ∧
      ∃ t, perform .reset stateD5 = .next t ∧ true = true :=
  ⟨next_of_ends (P := fun _ => true) (by decide), next_of_ends (P := fun _ => true) (by decide)⟩

theorem test_witness_CmdHoldsTheLastWordWritten :
    (∃ t, perform (.host (.writeReg 0x00 .word 0x00010001)) stateB8 = .next t ∧ true = true) ∧
      (∃ t, perform (.host (.readReg 0x00 .word)) stateB8 = .next t ∧ true = true) ∧
      ∃ t, perform .reset stateB8 = .next t ∧ true = true :=
  ⟨next_of_ends (P := fun _ => true) (by decide), next_of_ends (P := fun _ => true) (by decide),
    next_of_ends (P := fun _ => true) (by decide)⟩

theorem test_witness_CommandsReadNoHiddenState :
    (∃ t, exec .checksum stateD8 = .next t ∧ decide (t.status = 0#32) = true) ∧ ∃ e, exec .checksum stateB26 = .fault e :=
  ⟨next_of_ends (by decide), fault_of_faults (by decide)⟩

theorem test_witness_NothingDependsOnTheBaseAddress :
    (∃ t, step (withInput .reset) = .next t ∧ true = true) ∧
      (∃ e, step (withInput (.host (.readOctet .pay 0))) = .fault e) ∧
      ∃ e, step (withInput (.host .other)) = .refused e :=
  ⟨next_of_ends (P := fun _ => true) (by decide), fault_of_faults (by decide), refused_of_refuses (by decide)⟩

theorem test_witness_ReadyCommandsComplete :
    commandReady .encode stateB6 ∧ commandReady (.decode 0) stateC7 ∧ commandReady .checksum stateD8 := by decide

theorem test_witness_ActionsInTheContractAreCarriedOut :
    actionInContract (.writeReg 0x00 .word 0x00000001) stateB6 ∧
      (∀ (w : Word) (i : Instr), HostAction.writeReg 0x00 .word 0x00000001 = .writeReg 0x00 .word w →
        decodeWord w = .command i → commandReady i stateB6) ∧
      actionInContract (.writeReg 0x0C .word 128) stateB6 ∧ actionInContract (.readReg 0x44 .word) stateB6 ∧
      actionInContract (.writeOctet .wire 127 0x00) stateB6 ∧ actionInContract (.readOctet .pay 3) stateB6 := by
  refine ⟨by decide, fun w i h hd => ?_, by decide⟩
  cases h
  rw [show decodeWord 0x00000001 = .command .encode by decide] at hd
  cases hd
  decide

theorem test_witness_RegisterMapIsOneToOne : regAt 0x44 = some (.field .seq) := by decide

theorem test_witness_MemWriteThenMemReadGivesTheOctets : 2 + ([0xAB] : List Byte).length ≤ 3 ∧ 1 < 2 := by decide

end Sys2Proof.Tests
end

section
/-! The step, and the invariant every step keeps: O5 and O44. -/

namespace Sys2Proof.Machine

/-! ### One step -/

/-- With nothing pending the block idles (R116). -/
theorem step_of_idle {s : State} (h : s.pending = []) : step s = .next s := by
  simp only [step, h]

/-- A step takes the first pending input (R9, R41). -/
theorem step_of_pending {s : State} {j : Input} {rest : List Input} (h : s.pending = j :: rest) :
    step s = perform j (s.setPending rest) := by
  simp only [step, h]

/-- A `CMD` write of a word that spells a command is that command, the word in `CMD` (R15, R33). -/
theorem perform_cmdWrite_of_command {w : Word} {i : Instr} (h : decodeWord w = .command i) (s : State) :
    perform (.host (.writeReg 0x00 .word w)) s = exec i ((s.setReply .nothing).setCmd w) := by
  have hissue : perform (.host (.writeReg 0x00 .word w)) s = issue w (s.setReply .nothing) := rfl
  rw [hissue, issue, h]

/-! ### The invariant under each update -/

/-- An `INFO` that goes with its code fits in the 16 bits of `STATUS` (R12, R14). -/
theorem infoFits_lt {c : Code} {n : Nat} (h : infoFits c n = true) : n < 0x10000 := by
  cases c <;> simp [infoFits] at h <;> omega

/-- A 16-bit value in a register leaves the upper half zero (R16). -/
theorem highHalf_zext32 (v : Half) : highHalf (zext32 v) = 0 := by
  ext i hi
  simp [highHalf, zext32]

/-- R14: a header length is an `INFO` of `TruncatedHeader`. -/
theorem infoFits_headerLength (sh : Shape) : infoFits .truncatedHeader sh.headerLength = true := by
  rcases headerLength_cases sh with h | h | h | h <;> rw [h] <;> rfl

/-- R18: a field's index is an `INFO` of `InvalidFieldWidth`. -/
theorem infoFits_fieldNumber (i : FieldIndex) : infoFits .invalidFieldWidth (fieldNumber i) = true := by
  simpa [infoFits] using fieldNumber_le i

/-- Power-on with legal parameters has the invariant (R116, R117). -/
theorem inv_resetWith {c : Config} (h : c.wf) : (State.resetWith c).Inv :=
  ⟨h, Nat.zero_le _, Nat.zero_le _, List.Pairwise.nil, List.Pairwise.nil, by simp [State.resetWith],
    by simp [State.resetWith],
    show statusLegal 0 = true by decide, show highHalf 0 = 0 by decide⟩

section
variable {s : State} (h : s.Inv)
include h

/-- R17: `WIRE_LEN` is within the buffer. -/
theorem State.Inv.wireLen_le : s.wireLen.toNat ≤ s.cfg.bufMax := by
  obtain ⟨-, hwl, -⟩ := h
  exact hwl

/-- The invariant says nothing of the pending inputs. -/
theorem State.Inv.setPending (l : List Input) : (s.setPending l).Inv := h

/-- The invariant says nothing of the reply. -/
theorem State.Inv.setReply (r : Reply) : (s.setReply r).Inv := h

/-- The invariant says nothing of `CMD`. -/
theorem State.Inv.setCmd (w : Word) : (s.setCmd w).Inv := h

/-- The invariant says nothing of the field registers. -/
theorem State.Inv.setFields (f : Fields) : (s.setFields f).Inv := h

theorem State.Inv.takeReset : s.takeReset.Inv := by
  obtain ⟨hcfg, -⟩ := h
  exact inv_resetWith hcfg

theorem State.Inv.finish {c : Code} {n : Nat} (hf : infoFits c n = true) : (s.finish c n).Inv := by
  obtain ⟨hcfg, hwl, hpl, hww, hpw, hwb, hpb, -, hcs⟩ := h
  exact ⟨hcfg, hwl, hpl, hww, hpw, hwb, hpb, statusLegal_statusWord c (infoFits_lt hf) hf, hcs⟩

theorem State.Inv.setCsumResult {v : Word} (hv : highHalf v = 0) : (s.setCsumResult v).Inv := by
  obtain ⟨hcfg, hwl, hpl, hww, hpw, hwb, hpb, hst, -⟩ := h
  exact ⟨hcfg, hwl, hpl, hww, hpw, hwb, hpb, hst, hv⟩

theorem State.Inv.setWireLen {v : Word} (hv : v.toNat ≤ s.cfg.bufMax) : (s.setWireLen v).Inv := by
  obtain ⟨hcfg, -, hpl, hww, hpw, hwb, hpb, hst, hcs⟩ := h
  exact ⟨hcfg, hv, hpl, hww, hpw, hwb, hpb, hst, hcs⟩

theorem State.Inv.setPayLen {v : Word} (hv : v.toNat ≤ s.cfg.bufMax) : (s.setPayLen v).Inv := by
  obtain ⟨hcfg, hwl, -, hww, hpw, hwb, hpb, hst, hcs⟩ := h
  exact ⟨hcfg, hwl, hv, hww, hpw, hwb, hpb, hst, hcs⟩

/-- `MemWrite` inside `WIRE` (R43). -/
theorem State.Inv.setWire_memWrite {a : Nat} {p : List Byte} (ha : a + p.length ≤ s.cfg.bufMax) :
    (s.setWire (memWrite s.wire a p)).Inv := by
  obtain ⟨hcfg, hwl, hpl, hww, hpw, hwb, hpb, hst, hcs⟩ := h
  exact ⟨hcfg, hwl, hpl, wf_memWrite hww a p, hpw, below_memWrite hwb ha, hpb, hst, hcs⟩

/-- `MemWrite` inside `PAY` (R43). -/
theorem State.Inv.setPay_memWrite {a : Nat} {p : List Byte} (ha : a + p.length ≤ s.cfg.bufMax) :
    (s.setPay (memWrite s.pay a p)).Inv := by
  obtain ⟨hcfg, hwl, hpl, hww, hpw, hwb, hpb, hst, hcs⟩ := h
  exact ⟨hcfg, hwl, hpl, hww, wf_memWrite hpw a p, hwb, below_memWrite hpb ha, hst, hcs⟩

end

/-! ### The invariant under each command -/

/-- The image `ENCODE` stores fits, since its length passed the capacity check (R72). -/
theorem execEncode_keeps_inv {s t : State} (h : s.Inv) (ht : execEncode s = .next t) : t.Inv := by
  obtain ⟨i, -, he⟩ | ⟨-, -, he⟩ | ⟨-, -, -, he⟩ | ⟨p, -, hl, hp, he⟩ := execEncode_cases s <;> rw [he] at ht <;>
    cases ht
  · exact h.finish (infoFits_fieldNumber i)
  · exact h.finish rfl
  · have himage : (wireImage s.f p).length = encodeLength s := by
      rw [wireImage_length, (memRead_eq_some hp).1, encodeLength]
    have hlen : (BitVec.ofNat 32 (encodeLength s)).toNat ≤ s.cfg.bufMax := (Nat.mod_le _ _).trans hl
    have hwire : (s.setWire (memWrite s.wire 0 (wireImage s.f p))).Inv := h.setWire_memWrite (by omega)
    exact (hwire.setWireLen hlen).finish rfl

/-- The payload `DECODE` stores fits, since it is part of an image that lies in `WIRE[0..WIRE_LEN)` (R81, R84). -/
theorem storeDecoded_keeps_inv {s : State} {b : List Byte} (h : s.Inv) (hb : b.length ≤ s.wireLen.toNat) :
    (storeDecoded b s).Inv := by
  have hwl := h.wireLen_le
  have hpay : (decodedPayload b).length ≤ s.cfg.bufMax := by
    rw [decodedPayload, List.length_drop]
    omega
  have hlen : (BitVec.ofNat 32 (decodedPayload b).length).toNat ≤ s.cfg.bufMax := (Nat.mod_le _ _).trans hpay
  have hstored : ((s.setFields (decodedFields b)).setPay (memWrite s.pay 0 (decodedPayload b))).Inv :=
    (h.setFields _).setPay_memWrite (by simpa using hpay)
  exact (hstored.setPayLen hlen).finish rfl

theorem execDecode_keeps_inv {skip : Nat} {s t : State} (h : s.Inv) (ht : execDecode skip s = .next t) : t.Inv := by
  obtain ⟨-, he⟩ | ⟨-, -, he⟩ | ⟨first, -, -, ⟨-, he⟩ | ⟨-, -, he⟩ | ⟨b, -, hb, he⟩⟩ := execDecode_cases skip s <;>
    rw [he] at ht <;> cases ht
  · exact h.finish rfl
  · exact h.finish (infoFits_headerLength _)
  · have hlen : b.length = s.wireLen.toNat - skip := (memRead_eq_some hb).1.trans (remaining_eq skip s)
    exact storeDecoded_keeps_inv h (by omega)

theorem execChecksum_keeps_inv {s t : State} (h : s.Inv) (ht : execChecksum s = .next t) : t.Inv := by
  obtain ⟨i, -, he⟩ | ⟨-, -, he⟩ | ⟨p, -, -, he⟩ := execChecksum_cases s <;> rw [he] at ht <;> cases ht
  · exact h.finish (infoFits_fieldNumber i)
  · exact (h.setCsumResult (highHalf_zext32 _)).finish rfl

theorem exec_keeps_inv {i : Instr} {s t : State} (h : s.Inv) (ht : exec i s = .next t) : t.Inv := by
  cases i with
  | encode => exact execEncode_keeps_inv h ht
  | decode skip => exact execDecode_keeps_inv h ht
  | checksum => exact execChecksum_keeps_inv h ht

/-! ### The invariant under each input -/

/-- An access keeps the invariant: lengths and indices are checked against `BUF_MAX` (R33 to R35). -/
theorem accessEffect_keeps_inv {s t : State} (h : s.Inv) (ht : AccessEffect s t) : t.Inv := by
  obtain ⟨r, rfl | ⟨f, rfl⟩ | ⟨v, hv, rfl | rfl⟩ | ⟨a, b, ha, rfl | rfl⟩⟩ := ht
  · exact h.setReply r
  · exact (h.setReply r).setFields f
  · exact (h.setReply r).setWireLen hv
  · exact (h.setReply r).setPayLen hv
  · exact (h.setReply r).setWire_memWrite (a := a) (p := [b]) ha
  · exact (h.setReply r).setPay_memWrite (a := a) (p := [b]) ha

theorem perform_keeps_inv {i : Input} {s t : State} (h : s.Inv) (ht : perform i s = .next t) : t.Inv := by
  obtain ⟨-, rfl⟩ | ⟨w, j, -, -, he⟩ | ⟨w, y, -, -, rfl⟩ | ⟨-, -, ha⟩ := perform_cases ht
  · exact h.takeReset
  · exact exec_keeps_inv ((h.setReply .nothing).setCmd w) he
  · exact ((h.setReply .nothing).setCmd w).finish rfl
  · exact accessEffect_keeps_inv h ha

/-- Settles O44: a step is idle or performs one input, and each input keeps the invariant. -/
theorem stepKeepsTheInvariant : Obligations.StepKeepsTheInvariant := by
  intro s t h ht
  cases hp : s.pending with
  | nil =>
    rw [step_of_idle hp] at ht
    cases ht
    exact h
  | cons j rest =>
    rw [step_of_pending hp] at ht
    exact perform_keeps_inv (h.setPending rest) ht

/-- Settles O5: a step performs the first pending input, and a `CMD` write of a command's word is that command. -/
theorem stepRunsTheDecodedCommand : Obligations.StepRunsTheDecodedCommand := by
  refine ⟨fun s w rest i hp hd => ?_, fun s j rest hp => step_of_pending hp, fun s hp => step_of_idle hp⟩
  rw [step_of_pending hp, perform_cmdWrite_of_command hd]
  rfl

end Sys2Proof.Machine
end

section
/-! The commands with an equation for each of their endings, and the status words they end with: O48. -/

namespace Sys2Proof.Machine

section
variable {s : State}

/-! ### The endings of `ENCODE` -/

/-- R71: the first field over its width ends `ENCODE`. -/
theorem execEncode_of_invalid {i : FieldIndex} (hf : firstInvalid (encodeChecked s.f) s.f = some i) :
    execEncode s = .next (s.finish .invalidFieldWidth (fieldNumber i)) := by
  simp only [execEncode, hf, raise]

/-- R72: an image over `BUF_MAX` ends `ENCODE`. -/
theorem execEncode_of_overflow (hf : firstInvalid (encodeChecked s.f) s.f = none)
    (hl : s.cfg.bufMax < encodeLength s) : execEncode s = .next (s.finish .capacityExceeded 0) := by
  simp only [execEncode, hf, hl, if_true, raise]

/-- R44: an unwritten payload octet. -/
theorem execEncode_of_unwritten (hf : firstInvalid (encodeChecked s.f) s.f = none)
    (hl : encodeLength s ≤ s.cfg.bufMax) (hp : memRead s.pay 0 s.payLen.toNat = none) :
    execEncode s = .fault .unwrittenByte := by
  simp only [execEncode, hf, hl.not_gt, if_false, withOctets, hp]

/-- R70, R73: the image and its length are stored. -/
theorem execEncode_of_read {p : List Byte} (hf : firstInvalid (encodeChecked s.f) s.f = none)
    (hl : encodeLength s ≤ s.cfg.bufMax) (hp : memRead s.pay 0 s.payLen.toNat = some p) :
    execEncode s = .next (((s.setWire (memWrite s.wire 0 (wireImage s.f p))).setWireLen
      (BitVec.ofNat 32 (encodeLength s))).finish .ok 0) := by
  simp only [execEncode, hf, hl.not_gt, if_false, withOctets, hp]

/-! ### The endings of `DECODE` -/

section
variable {skip : Nat}

/-- R82: fewer than 4 octets remain. -/
theorem execDecode_of_short (hm : remaining skip s < 4) :
    execDecode skip s = .next (s.finish .truncatedHeader 4) := by
  simp only [execDecode, hm, if_true, raise]

/-- R44: an unwritten octet of word 0. -/
theorem execDecode_of_word0_unwritten (hm : 4 ≤ remaining skip s) (hw : memRead s.wire skip 2 = none) :
    execDecode skip s = .fault .unwrittenByte := by
  simp only [execDecode, hm.not_gt, if_false, withOctets, hw]

section
variable {first : List Byte} (hm : 4 ≤ remaining skip s) (hw : memRead s.wire skip 2 = some first)
include hm hw

/-- R82: fewer octets remain than word 0 asks for. -/
theorem execDecode_of_truncated (hh : remaining skip s < (shapeOfWord0 (w16 first 0)).headerLength) :
    execDecode skip s = .next (s.finish .truncatedHeader (shapeOfWord0 (w16 first 0)).headerLength) := by
  simp only [execDecode, hm.not_gt, if_false, withOctets, hw, hh, if_true, raise]

/-- R44: an unwritten octet of the image. -/
theorem execDecode_of_unwritten (hh : (shapeOfWord0 (w16 first 0)).headerLength ≤ remaining skip s)
    (hb : memRead s.wire skip (remaining skip s) = none) : execDecode skip s = .fault .unwrittenByte := by
  simp only [execDecode, hm.not_gt, if_false, withOctets, hw, hh.not_gt, hb]

/-- R80: the header and the payload are stored. -/
theorem execDecode_of_read {b : List Byte} (hh : (shapeOfWord0 (w16 first 0)).headerLength ≤ remaining skip s)
    (hb : memRead s.wire skip (remaining skip s) = some b) : execDecode skip s = .next (storeDecoded b s) := by
  simp only [execDecode, hm.not_gt, if_false, withOctets, hw, hh.not_gt, hb]

end

end

/-! ### The endings of `CHECKSUM` -/

/-- R96: the first field over its width ends `CHECKSUM`. -/
theorem execChecksum_of_invalid {i : FieldIndex} (hf : firstInvalid checksumChecked s.f = some i) :
    execChecksum s = .next (s.finish .invalidFieldWidth (fieldNumber i)) := by
  simp only [execChecksum, hf, raise]

/-- R44: an unwritten payload octet. -/
theorem execChecksum_of_unwritten (hf : firstInvalid checksumChecked s.f = none)
    (hp : memRead s.pay 0 s.payLen.toNat = none) : execChecksum s = .fault .unwrittenByte := by
  simp only [execChecksum, hf, withOctets, hp]

/-- R96: the result is stored. -/
theorem execChecksum_of_read {p : List Byte} (hf : firstInvalid checksumChecked s.f = none)
    (hp : memRead s.pay 0 s.payLen.toNat = some p) :
    execChecksum s = .next ((s.setCsumResult (zext32 (checksum s.f p))).finish .ok 0) := by
  simp only [execChecksum, hf, withOctets, hp]

end

/-! ### Status words -/

/-- R14: the register that `InvalidFieldWidth` names is over its width, and its index is the `INFO`. -/
theorem status_of_firstInvalid {is : List FieldIndex} {f : Fields} {i : FieldIndex}
    (h : firstInvalid is f = some i) :
    ∃ j, fieldMax j < (f.get j).toNat ∧
      statusWord .invalidFieldWidth (fieldNumber i) = BitVec.ofNat 32 (fieldNumber j * 0x10000 + 1) :=
  ⟨i, (firstInvalid_eq_some h).2, statusWord_eq _ (by have := fieldNumber_le i; omega)⟩

/-- R14: the four words of `TruncatedHeader`. -/
theorem statusWord_headerLength (sh : Shape) :
    statusWord .truncatedHeader sh.headerLength = 0x00040002 ∨
      statusWord .truncatedHeader sh.headerLength = 0x00080002 ∨
      statusWord .truncatedHeader sh.headerLength = 0x000C0002 ∨
      statusWord .truncatedHeader sh.headerLength = 0x00100002 := by
  rcases headerLength_cases sh with h | h | h | h <;> rw [h] <;> decide

/-- Settles O48: each ending of each command, with its status word as a number. -/
theorem commandsReportTheirOwnOutcomes : Obligations.CommandsReportTheirOwnOutcomes := by
  refine ⟨fun s t ht => ?_, fun s t skip ht => ?_, fun s t ht => ?_⟩
  · change execEncode s = _ at ht
    obtain ⟨i, hf, he⟩ | ⟨-, -, he⟩ | ⟨-, -, -, he⟩ | ⟨p, -, -, -, he⟩ := execEncode_cases s <;> rw [he] at ht <;>
      cases ht
    · exact .inr (.inr (status_of_firstInvalid hf))
    · exact .inr (.inl (by decide : statusWord .capacityExceeded 0 = 0x00000004))
    · exact .inl statusWord_ok
  · change execDecode skip s = _ at ht
    obtain ⟨-, he⟩ | ⟨-, -, he⟩ | ⟨first, -, -, ⟨-, he⟩ | ⟨-, -, he⟩ | ⟨b, -, -, he⟩⟩ := execDecode_cases skip s <;>
      rw [he] at ht <;> cases ht
    · exact .inr (.inl (by decide : statusWord .truncatedHeader 4 = 0x00040002))
    · exact .inr (statusWord_headerLength _)
    · exact .inl statusWord_ok
  · change execChecksum s = _ at ht
    obtain ⟨i, hf, he⟩ | ⟨-, -, he⟩ | ⟨p, -, -, he⟩ := execChecksum_cases s <;> rw [he] at ht <;> cases ht
    · exact .inr (status_of_firstInvalid hf)
    · exact .inl statusWord_ok

end Sys2Proof.Machine
end

section
/-! What a command does not read: O22 and O52. -/

namespace Sys2Proof.Machine

/-- A result whose next state, where there is one, is changed by `u`. -/
def mapNext (u : State → State) : Result → Result
  | .next t => .next (u t)
  | .fault e => .fault e
  | .refused e => .refused e

@[simp] theorem mapNext_next (u : State → State) (t : State) : mapNext u (.next t) = .next (u t) := rfl
@[simp] theorem mapNext_fault (u : State → State) (e : Fault) : mapNext u (.fault e) = .fault e := rfl

/-- A run that is another run with its next state changed goes on when the other does, and faults when it does. -/
theorem next_and_fault_of_mapNext {x y : Result} {u : State → State} (h : y = mapNext u x) :
    (∀ t, x = .next t → y = .next (u t)) ∧ ∀ e, x = .fault e → y = .fault e := by
  refine ⟨fun t hx => ?_, fun e hx => ?_⟩ <;> rw [h, hx] <;> rfl

/-! ### The fields `ENCODE` reads -/

/-- R20, R62: two register files that agree in all that `ENCODE` reads: `F_CSUM` and absent fields aside. -/
structure EncodedAlike (f g : Fields) : Prop where
  cp : g.cp = f.cp
  kp : g.kp = f.kp
  sp : g.sp = f.sp
  res0 : g.res0 = f.res0
  ver : g.ver = f.ver
  proto : g.proto = f.proto
  res1 : f.cp = 1#32 → g.res1 = f.res1
  key : f.kp = 1#32 → g.key = f.key
  seq : f.sp = 1#32 → g.seq = f.seq

/-- The check of field registers looks only at those of its list. -/
theorem firstInvalid_congr {is : List FieldIndex} {f g : Fields} (h : ∀ i ∈ is, g.get i = f.get i) :
    firstInvalid is g = firstInvalid is f := by
  induction is with
  | nil => rfl
  | cons i is ih =>
    obtain ⟨hi, his⟩ := List.forall_mem_cons.1 h
    have ih := ih his
    simp only [firstInvalid] at ih ⊢
    rw [List.find?_cons, List.find?_cons, hi, ih]

/-- An absent part has no words, whatever its register holds (R90). -/
theorem optionalWords_congr {present : Bool} {v v' : Word} (h : present = true → v' = v) :
    optionalWords present v' = optionalWords present v := by
  cases present with
  | false => rfl
  | true => rw [h rfl]

/-- An absent part has no octets, whatever its register holds (R62). -/
theorem optionalPart_congr {present : Bool} {v v' : Word} (h : present = true → v' = v) :
    optionalPart present v' = optionalPart present v := by
  cases present with
  | false => rfl
  | true => rw [h rfl]

section
variable {f g : Fields} (h : EncodedAlike f g)
include h

theorem EncodedAlike.shapeOfFields_eq : shapeOfFields g = shapeOfFields f := by
  simp only [shapeOfFields, h.cp, h.kp, h.sp]

theorem EncodedAlike.word0_eq : word0 g = word0 f := by
  simp only [word0, h.cp, h.kp, h.sp, h.res0, h.ver]

/-- `F_RES1` is checked only where it is present (R71). -/
theorem EncodedAlike.firstInvalid_eq : firstInvalid (encodeChecked g) g = firstInvalid (encodeChecked f) f := by
  have hchecked : encodeChecked g = encodeChecked f := by simp only [encodeChecked, h.cp]
  rw [hchecked]
  apply firstInvalid_congr
  by_cases hc : f.cp = 1#32 <;>
    simp [encodeChecked, hc, Fields.get, h.cp, h.kp, h.sp, h.res0, h.ver, h.proto, h.res1]

/-- R95: of the fields, the checksum of a header that has one depends on those that `ENCODE` reads. -/
theorem EncodedAlike.checksum_eq (hc : f.cp = 1#32) (p : List Byte) : checksum g p = checksum f p := by
  have hkey : optionalWords (f.kp = 1#32) g.key = optionalWords (f.kp = 1#32) f.key :=
    optionalWords_congr (by simpa using h.key)
  have hseq : optionalWords (f.sp = 1#32) g.seq = optionalWords (f.sp = 1#32) f.seq :=
    optionalWords_congr (by simpa using h.seq)
  simp only [checksum, checksumWords, h.word0_eq, h.proto, h.res1 hc, h.kp, h.sp, hkey, hseq]

theorem EncodedAlike.checksumPart_eq (p : List Byte) : checksumPart g p = checksumPart f p := by
  by_cases hc : f.cp = 1#32
  · simp only [checksumPart, h.cp, h.checksum_eq hc, h.res1 hc]
  · simp only [checksumPart, h.cp, hc, if_false]

theorem EncodedAlike.wireImage_eq (p : List Byte) : wireImage g p = wireImage f p := by
  have hkey : optionalPart (f.kp = 1#32) g.key = optionalPart (f.kp = 1#32) f.key :=
    optionalPart_congr (by simpa using h.key)
  have hseq : optionalPart (f.sp = 1#32) g.seq = optionalPart (f.sp = 1#32) f.seq :=
    optionalPart_congr (by simpa using h.seq)
  simp only [wireImage, h.word0_eq, h.proto, h.checksumPart_eq, h.kp, h.sp, hkey, hseq]

end

/-- `ENCODE` of fields it cannot tell apart ends in the same way, those fields kept. -/
theorem execEncode_setFields {s : State} {g : Fields} (h : EncodedAlike s.f g) :
    execEncode (s.setFields g) = mapNext (·.setFields g) (execEncode s) := by
  have hinvalid := h.firstInvalid_eq
  have hlength : encodeLength (s.setFields g) = encodeLength s := by
    simp only [encodeLength, State.setFields_f, State.setFields_payLen, h.shapeOfFields_eq]
  obtain ⟨i, hf, he⟩ | ⟨hf, hl, he⟩ | ⟨hf, hl, hp, he⟩ | ⟨p, hf, hl, hp, he⟩ := execEncode_cases s <;> rw [he]
  · exact execEncode_of_invalid (hinvalid.trans hf)
  · exact execEncode_of_overflow (hinvalid.trans hf) (by rwa [hlength])
  · exact execEncode_of_unwritten (hinvalid.trans hf) (by rwa [hlength]) hp
  · have hg := execEncode_of_read (s := s.setFields g) (hinvalid.trans hf) (by rwa [hlength]) hp
    rw [hg, hlength, State.setFields_f, h.wireImage_eq]
    rfl

/-- Settles O22: every check and every octet of the image is the same of registers that agree in what is read. -/
theorem encodeIgnoresAbsentFields : Obligations.EncodeIgnoresAbsentFields :=
  fun _ _ hcp hkp hsp hres0 hver hproto hres1 hkey hseq =>
    next_and_fault_of_mapNext (execEncode_setFields ⟨hcp, hkp, hsp, hres0, hver, hproto, hres1, hkey, hseq⟩)

/-! ### The hidden state -/

/-- R25: what no command reads: `CMD`, earlier outcomes and results, the sticky marks, and the model's own `pending`
and `reply`. -/
structure HiddenState where
  cmd : Word
  status : Word
  csumResult : Word
  faultMark : Bool
  refusedMark : Bool
  pending : List Input
  reply : Reply

/-- The hidden part of a state. -/
def State.hidden (s : State) : HiddenState :=
  ⟨s.cmd, s.status, s.csumResult, s.faultMark, s.refusedMark, s.pending, s.reply⟩

/-- A state with its hidden part replaced. -/
def State.withHidden (s : State) (h : HiddenState) : State :=
  { s with
    cmd := h.cmd, status := h.status, csumResult := h.csumResult, faultMark := h.faultMark,
    refusedMark := h.refusedMark, pending := h.pending, reply := h.reply }

@[simp] theorem State.withHidden_hidden (s : State) : s.withHidden s.hidden = s := rfl

/-- The state `t` after the command `i`, had it started with the hidden part `h`: `STATUS` and the result of a
successful `CHECKSUM` are the command's, the rest of `h` stands. -/
def HiddenState.carry (h : HiddenState) (i : Instr) (t : State) : State :=
  { t with
    cmd := h.cmd
    csumResult := if i = .checksum ∧ t.status = 0#32 then t.csumResult else h.csumResult
    faultMark := h.faultMark
    refusedMark := h.refusedMark
    pending := h.pending
    reply := h.reply }

section
variable (h : HiddenState)

/-- A successful `CHECKSUM` leaves its own result. -/
theorem HiddenState.carry_checksum_ok {t : State} (ht : t.status = 0#32) :
    h.carry .checksum t = ((t.withHidden h).setStatus t.status).setCsumResult t.csumResult := by
  simp only [HiddenState.carry, ht, and_self, if_true]
  rfl

/-- Without a successful `CHECKSUM` the whole of `h` but `STATUS` stands. -/
theorem HiddenState.carry_of_no_result {i : Instr} {t : State} (ht : ¬ (i = .checksum ∧ t.status = 0#32)) :
    h.carry i t = (t.withHidden h).setStatus t.status := by
  simp only [HiddenState.carry, if_neg ht]
  rfl

/-- A command other than `CHECKSUM` leaves the whole of `h` but `STATUS`. -/
theorem HiddenState.carry_of_ne_checksum {i : Instr} (hi : i ≠ .checksum) (t : State) :
    h.carry i t = (t.withHidden h).setStatus t.status :=
  h.carry_of_no_result fun hc => hi hc.1

theorem execEncode_withHidden (s : State) :
    execEncode (s.withHidden h) = mapNext (h.carry .encode) (execEncode s) := by
  obtain ⟨i, hf, he⟩ | ⟨hf, hl, he⟩ | ⟨hf, hl, hp, he⟩ | ⟨p, hf, hl, hp, he⟩ := execEncode_cases s <;>
    simp only [he, mapNext_next, mapNext_fault, h.carry_of_ne_checksum (show Instr.encode ≠ .checksum by decide)]
  · exact execEncode_of_invalid hf
  · exact execEncode_of_overflow hf hl
  · exact execEncode_of_unwritten hf hl hp
  · exact execEncode_of_read hf hl hp

theorem execDecode_withHidden (skip : Nat) (s : State) :
    execDecode skip (s.withHidden h) = mapNext (h.carry (.decode skip)) (execDecode skip s) := by
  obtain ⟨hm, he⟩ | ⟨hm, hw, he⟩ | ⟨first, hm, hw, ⟨hh, he⟩ | ⟨hh, hb, he⟩ | ⟨b, hh, hb, he⟩⟩ :=
      execDecode_cases skip s <;>
    simp only [he, mapNext_next, mapNext_fault, h.carry_of_ne_checksum (show Instr.decode skip ≠ .checksum by simp)]
  · exact execDecode_of_short hm
  · exact execDecode_of_word0_unwritten hm hw
  · exact execDecode_of_truncated hm hw hh
  · exact execDecode_of_unwritten hm hw hh hb
  · exact execDecode_of_read (s := s.withHidden h) hm hw hh hb

theorem execChecksum_withHidden (s : State) :
    execChecksum (s.withHidden h) = mapNext (h.carry .checksum) (execChecksum s) := by
  obtain ⟨i, hf, he⟩ | ⟨hf, hp, he⟩ | ⟨p, hf, hp, he⟩ := execChecksum_cases s <;> rw [he]
  · have hstatus : statusWord .invalidFieldWidth (fieldNumber i) ≠ 0#32 := fun h0 => by cases eq_ok_of_statusWord h0
    rw [mapNext_next, h.carry_of_no_result fun hc => hstatus hc.2]
    exact execChecksum_of_invalid hf
  · exact execChecksum_of_unwritten hf hp
  · rw [mapNext_next, h.carry_checksum_ok statusWord_ok]
    exact execChecksum_of_read hf hp

/-- R25: a command started with another hidden part ends in the same way, that part carried along. -/
theorem exec_withHidden (i : Instr) (s : State) : exec i (s.withHidden h) = mapNext (h.carry i) (exec i s) := by
  cases i with
  | encode => exact execEncode_withHidden h s
  | decode skip => exact execDecode_withHidden h skip s
  | checksum => exact execChecksum_withHidden h s

end

/-- Settles O52: `exec_withHidden`, for the hidden part of the statement. -/
theorem commandsReadNoHiddenState : Obligations.CommandsReadNoHiddenState :=
  fun i s cmd status csum fm rm l r => next_and_fault_of_mapNext (exec_withHidden ⟨cmd, status, csum, fm, rm, l, r⟩ i s)

/-! ### The frame of a command -/

/-- A command leaves its own hidden part, but `STATUS` and the result of a successful `CHECKSUM`: `exec_withHidden` for
the hidden part that is there. -/
theorem exec_carries_hidden {i : Instr} {s t : State} (ht : exec i s = .next t) : t = s.hidden.carry i t := by
  have hs := exec_withHidden s.hidden i s
  rw [State.withHidden_hidden, ht, mapNext_next] at hs
  injection hs

section
variable {i : Instr} {s t : State} (ht : exec i s = .next t)
include ht

/-- No command writes `CMD` (R15). -/
theorem exec_cmd : t.cmd = s.cmd := by
  rw [exec_carries_hidden ht]
  rfl

/-- No command that goes on sets or clears the fault mark (R24). -/
theorem exec_faultMark : t.faultMark = s.faultMark := by
  rw [exec_carries_hidden ht]
  rfl

/-- No command that goes on sets or clears the refusal mark (R24). -/
theorem exec_refusedMark : t.refusedMark = s.refusedMark := by
  rw [exec_carries_hidden ht]
  rfl

/-- Only a successful `CHECKSUM` writes `CSUM_RESULT` (R16). -/
theorem exec_csumResult_of_no_result (hi : ¬ (i = .checksum ∧ t.status = 0#32)) : t.csumResult = s.csumResult := by
  rw [exec_carries_hidden ht, s.hidden.carry_of_no_result hi]
  rfl

end

end Sys2Proof.Machine
end

section
/-! What an input does to `CMD`, `STATUS`, `CSUM_RESULT` and the sticky marks: O11, O45, O49, O50 and O51. -/

namespace Sys2Proof.Machine

/-! ### The frame of an access -/

/-- The two states agree in `CMD`, `STATUS`, `CSUM_RESULT` and the sticky marks. -/
structure SameOutcome (s t : State) : Prop where
  cmd : t.cmd = s.cmd
  status : t.status = s.status
  csumResult : t.csumResult = s.csumResult
  faultMark : t.faultMark = s.faultMark
  refusedMark : t.refusedMark = s.refusedMark

/-- An access writes none of these (R12, R15, R16, R24). -/
theorem AccessEffect.sameOutcome {s t : State} (h : AccessEffect s t) : SameOutcome s t := by
  obtain ⟨r, rfl | ⟨f, rfl⟩ | ⟨v, -, rfl | rfl⟩ | ⟨a, b, -, rfl | rfl⟩⟩ := h <;> exact ⟨rfl, rfl, rfl, rfl, rfl⟩

/-- Settles O49: an input that is neither a `CMD` write nor reset is an access. -/
theorem statusIsWrittenByCommandsAndResetOnly : Obligations.StatusIsWrittenByCommandsAndResetOnly := by
  intro s t i ht hcmd hreset
  obtain ⟨hi, -⟩ | ⟨w, j, hi, -⟩ | ⟨w, y, hi, -⟩ | ⟨-, -, ha⟩ := perform_cases ht
  · exact absurd hi hreset
  · exact absurd hi (hcmd w)
  · exact absurd hi (hcmd w)
  · exact ha.sameOutcome.status

/-! ### `CMD` -/

/-- A `CMD` write that goes on leaves its word in `CMD` (R15). -/
theorem perform_cmdWrite_cmd {w : Word} {s t : State} (ht : perform (.host (.writeReg 0x00 .word w)) s = .next t) :
    t.cmd = w := by
  obtain ⟨hi, -⟩ | ⟨v, j, hi, -, he⟩ | ⟨v, y, hi, -, rfl⟩ | ⟨hcmd, -⟩ := perform_cases ht
  · cases hi
  · cases hi
    exact exec_cmd he
  · cases hi
    rfl
  · exact absurd rfl (hcmd w)

/-- Settles O51: a `CMD` write by `perform_cmdWrite_cmd`, an access by its frame, and reset by its values. -/
theorem cmdHoldsTheLastWordWritten : Obligations.CmdHoldsTheLastWordWritten := by
  intro s t i ht
  refine ⟨fun w hi => ?_, fun hcmd hreset => ?_, fun hi => ?_⟩
  · subst hi
    exact perform_cmdWrite_cmd ht
  · obtain ⟨hi, -⟩ | ⟨w, j, hi, -⟩ | ⟨w, y, hi, -⟩ | ⟨-, -, ha⟩ := perform_cases ht
    · exact absurd hi hreset
    · exact absurd hi (hcmd w)
    · exact absurd hi (hcmd w)
    · exact ha.sameOutcome.cmd
  · subst hi
    cases ht
    exact ⟨rfl, rfl⟩

/-! ### `CSUM_RESULT` -/

/-- R51: the one word of `CHECKSUM`. -/
theorem eq_of_decodeWord_checksum {w : Word} (h : decodeWord w = .command .checksum) : w = 0x00000003 := by
  have hfields : rsvField w = 0#8 ∧ skipField w = 0#16 ∧ opField w = 0x03#8 := by
    unfold decodeWord at h
    split_ifs at h <;> simp_all
  obtain ⟨hrsv, hskip, hop⟩ := hfields
  rw [← commandWord_fields w hrsv, hskip, hop]
  decide

/-- A 16-bit value in a register (R16). -/
theorem zext32_toNat_lt (v : Half) : (zext32 v).toNat < 0x10000 := by
  have := v.isLt
  rw [zext32_eq, BitVec.toNat_ofNat]
  omega

/-- A successful `CHECKSUM` leaves a 16-bit result (R16). -/
theorem execChecksum_csumResult_lt {s t : State} (ht : execChecksum s = .next t) (hok : t.status = 0#32) :
    t.csumResult.toNat < 0x10000 := by
  obtain ⟨i, -, he⟩ | ⟨-, -, he⟩ | ⟨p, -, -, he⟩ := execChecksum_cases s <;> rw [he] at ht <;> cases ht
  · cases eq_ok_of_statusWord hok
  · exact zext32_toNat_lt _

/-- Settles O50: reset, a successful `CHECKSUM`, or an input that leaves `CSUM_RESULT`. -/
theorem csumResultIsWrittenByChecksumAndResetOnly : Obligations.CsumResultIsWrittenByChecksumAndResetOnly := by
  intro s t i ht
  obtain ⟨hi, rfl⟩ | ⟨w, j, hi, hd, he⟩ | ⟨w, y, -, -, rfl⟩ | ⟨-, -, ha⟩ := perform_cases ht
  · exact .inr (.inl ⟨hi, rfl⟩)
  · by_cases hresult : j = .checksum ∧ t.status = 0#32
    · obtain ⟨rfl, hok⟩ := hresult
      obtain rfl := eq_of_decodeWord_checksum hd
      exact .inr (.inr ⟨hi, hok, execChecksum_csumResult_lt he hok⟩)
    · exact .inl (exec_csumResult_of_no_result he hresult :)
  · exact .inl rfl
  · exact .inl ha.sameOutcome.csumResult

/-! ### The sticky marks -/

/-- An input that goes on sets and clears no mark (R24). -/
theorem perform_marks {i : Input} {s t : State} (ht : perform i s = .next t) :
    t.faultMark = s.faultMark ∧ t.refusedMark = s.refusedMark := by
  obtain ⟨-, rfl⟩ | ⟨w, j, -, -, he⟩ | ⟨w, y, -, -, rfl⟩ | ⟨-, -, ha⟩ := perform_cases ht
  · exact ⟨rfl, rfl⟩
  · exact ⟨(exec_faultMark he :), (exec_refusedMark he :)⟩
  · exact ⟨rfl, rfl⟩
  · exact ⟨ha.sameOutcome.faultMark, ha.sameOutcome.refusedMark⟩

section
variable {i : Input} {s : State}

theorem settle_of_next {t : State} (h : perform i s = .next t) : settle i s = t := by
  simp only [settle, h]

theorem settle_of_fault {e : Fault} (h : perform i s = .fault e) :
    settle i s = (beforeFault i s).setFaultMark true := by
  simp only [settle, h]

theorem settle_of_refused {e : Refusal} (h : perform i s = .refused e) : settle i s = s.setRefusedMark true := by
  simp only [settle, h]

end

/-- A faulting input has stored the word of a `CMD` write at most (R15, R44). -/
theorem beforeFault_cases (i : Input) (s : State) : beforeFault i s = s ∨ ∃ w, beforeFault i s = s.setCmd w := by
  unfold beforeFault
  split
  · split
    · exact .inr ⟨_, rfl⟩
    · exact .inl rfl
  · exact .inl rfl

theorem beforeFault_refusedMark (i : Input) (s : State) : (beforeFault i s).refusedMark = s.refusedMark := by
  obtain h | ⟨w, h⟩ := beforeFault_cases i s <;> rw [h]
  rfl

theorem State.Inv.beforeFault {s : State} (h : s.Inv) (i : Input) : (beforeFault i s).Inv := by
  obtain hb | ⟨w, hb⟩ := beforeFault_cases i s <;> rw [hb]
  · exact h
  · exact h.setCmd w

/-- A mark that is set stays set, whatever the input and however it ends (R24). -/
theorem settle_keeps_marks (i : Input) (s : State) :
    (s.faultMark = true → (settle i s).faultMark = true) ∧
      (s.refusedMark = true → (settle i s).refusedMark = true) := by
  cases h : perform i s with
  | next t =>
    obtain ⟨hfault, hrefused⟩ := perform_marks h
    rw [settle_of_next h, hfault, hrefused]
    exact ⟨id, id⟩
  | fault e =>
    rw [settle_of_fault h, State.setFaultMark_refusedMark, beforeFault_refusedMark]
    exact ⟨fun _ => rfl, id⟩
  | refused e =>
    rw [settle_of_refused h]
    exact ⟨id, fun _ => rfl⟩

/-- Settles O11: a fault and a refusal set their marks, and every input keeps the marks that are set. -/
theorem stickyMarksAreNeverCleared : Obligations.StickyMarksAreNeverCleared := by
  intro s i
  obtain ⟨hfault, hrefused⟩ := settle_keeps_marks i s
  refine ⟨?_, ?_, hfault, hrefused, fun t ht => ⟨settle_of_next ht, perform_marks ht⟩⟩
  · rintro ⟨e, he⟩
    rw [settle_of_fault he, State.setFaultMark_faultMark]
  · rintro ⟨e, he⟩
    rw [settle_of_refused he, State.setRefusedMark_refusedMark]

/-! ### The invariant of recorded steps -/

section
variable {s : State} (h : s.Inv)
include h

/-- The invariant says nothing of the fault mark. -/
theorem State.Inv.setFaultMark (b : Bool) : (s.setFaultMark b).Inv := h

/-- The invariant says nothing of the refusal mark. -/
theorem State.Inv.setRefusedMark (b : Bool) : (s.setRefusedMark b).Inv := h

theorem settle_keeps_inv (i : Input) : (settle i s).Inv := by
  cases hp : perform i s with
  | next t =>
    rw [settle_of_next hp]
    exact perform_keeps_inv h hp
  | fault e =>
    rw [settle_of_fault hp]
    exact (h.beforeFault i).setFaultMark true
  | refused e =>
    rw [settle_of_refused hp]
    exact h.setRefusedMark true

end

/-- Settles O45: a recorded step is idle or settles one input, and each settled input keeps the invariant. -/
theorem recordedStepsKeepTheInvariant : Obligations.RecordedStepsKeepTheInvariant := by
  intro s h
  unfold stickyStep
  split
  · exact h
  · exact settle_keeps_inv (h.setPending _) _

end Sys2Proof.Machine
end

section
/-! The register map and the register accesses: O7, O8, O9 and O56. -/

namespace Sys2Proof.Machine

/-! ### The register map -/

@[simp] theorem regAt_regOffset (r : Reg) : regAt (regOffset r) = some r := by
  cases r with
  | field i => cases i <;> rfl
  | _ => rfl

/-- A mapped offset is its register's offset (R31). -/
theorem regOffset_of_regAt {o : Nat} {r : Reg} (h : regAt o = some r) : regOffset r = o := by
  unfold regAt at h
  split at h <;> cases h <;> rfl

/-- R31: where the registers stand. -/
theorem regOffset_range (r : Reg) :
    regOffset r % 4 = 0 ∧ (regOffset r ≤ 0x10 ∨ (0x20 ≤ regOffset r ∧ regOffset r ≤ 0x44)) := by
  cases r with
  | field i =>
    have := fieldNumber_le i
    simp only [regOffset]
    omega
  | _ => decide

/-- R31: the mapped offsets. -/
theorem regAt_isSome_iff (o : Nat) :
    (regAt o).isSome = true ↔ o % 4 = 0 ∧ (o ≤ 0x10 ∨ (0x20 ≤ o ∧ o ≤ 0x44)) := by
  have mapped : ∀ o ≤ 0x44, o % 4 = 0 → o ≤ 0x10 ∨ 0x20 ≤ o → (regAt o).isSome = true := by decide
  constructor
  · intro h
    obtain ⟨r, hr⟩ := Option.isSome_iff_exists.1 h
    rw [← regOffset_of_regAt hr]
    exact regOffset_range r
  · rintro ⟨h4, ho⟩
    exact mapped o (by omega) h4 (by omega)

/-- Settles O56: the two maps are inverse to each other, and the mapped offsets are those of the registers. -/
theorem registerMapIsOneToOne : Obligations.RegisterMapIsOneToOne :=
  ⟨regAt_regOffset, fun _ _ => regOffset_of_regAt, regAt_isSome_iff⟩

/-! ### Register accesses -/

/-- R34: a whole-word access at a register's offset reaches the register. -/
@[simp] theorem resolveReg_regOffset (r : Reg) : resolveReg (regOffset r) .word = .ok r := by
  have := regOffset_range r
  simp only [resolveReg, regAt_regOffset, ne_eq, not_true_eq_false, if_false]
  rw [if_neg (by omega)]

/-- R34: any other access is refused. -/
theorem resolveReg_error {o : Nat} {w : Width} (h : ¬ (w = .word ∧ (regAt o).isSome = true)) :
    ∃ e, resolveReg o w = .error e := by
  cases hr : resolveReg o w with
  | error e => exact ⟨e, rfl⟩
  | ok r =>
    obtain ⟨hw, ho⟩ := resolveReg_ok hr
    exact absurd ⟨hw, by rw [ho]; rfl⟩ h

/-- R32: a register read. -/
theorem hostAction_readReg (r : Reg) (s : State) :
    hostAction (.readReg (regOffset r) .word) s = .next (s.setReply (.word (s.readReg r))) := by
  simp only [hostAction, resolveReg_regOffset]

/-- R33: a register write. -/
theorem hostAction_writeReg (r : Reg) (v : Word) (s : State) :
    hostAction (.writeReg (regOffset r) .word v) s = writeReg r v (s.setReply .nothing) := by
  simp only [hostAction, resolveReg_regOffset]

/-- R33: a length within the buffers is taken. -/
theorem writeLength_of_le {v : Word} {s : State} (h : v.toNat ≤ s.cfg.bufMax) (t : State) :
    writeLength v s t = .next t := if_pos h

/-- R34: a length over `BUF_MAX` is refused. -/
theorem writeLength_of_gt {v : Word} {s : State} (h : s.cfg.bufMax < v.toNat) (t : State) :
    writeLength v s t = .refused .lengthTooLarge := if_neg h.not_ge

/-- R33: a length over `BUF_MAX` is refused at both length registers. -/
theorem hostAction_writeLength_refused {v : Word} {s : State} (h : s.cfg.bufMax < v.toNat) :
    (∃ e, hostAction (.writeReg 0x0C .word v) s = .refused e) ∧
      ∃ e, hostAction (.writeReg 0x10 .word v) s = .refused e :=
  ⟨⟨_, (hostAction_writeReg .wireLen v s).trans (writeLength_of_gt h _)⟩,
    ⟨_, (hostAction_writeReg .payLen v s).trans (writeLength_of_gt h _)⟩⟩

/-- R52: a word that spells no command is stored and reported. -/
theorem issue_of_illegal {w : Word} {y : IllegalWord} (h : decodeWord w = .illegal y) (s : State) :
    issue w s = .next ((s.setCmd w).finish .illegalCommand 0) := by
  simp only [issue, h, raise]

/-- R15: a word that spells a command is stored, and the command executed. -/
theorem issue_of_command {w : Word} {i : Instr} (h : decodeWord w = .command i) (s : State) :
    issue w s = exec i (s.setCmd w) := by
  simp only [issue, h]

theorem statusWord_illegalCommand : statusWord .illegalCommand 0 = 0x00000003 := by decide

/-- Settles O7: `hostAction_readReg` at each register's offset. -/
theorem registerReadsReturnTheRegister : Obligations.RegisterReadsReturnTheRegister := fun s =>
  ⟨hostAction_readReg .cmd s, hostAction_readReg .status s, hostAction_readReg .csumResult s,
    hostAction_readReg .wireLen s, hostAction_readReg .payLen s, hostAction_readReg (.field .cp) s,
    hostAction_readReg (.field .kp) s, hostAction_readReg (.field .sp) s, hostAction_readReg (.field .res0) s,
    hostAction_readReg (.field .ver) s, hostAction_readReg (.field .proto) s, hostAction_readReg (.field .csum) s,
    hostAction_readReg (.field .res1) s, hostAction_readReg (.field .key) s, hostAction_readReg (.field .seq) s⟩

/-- Settles O8: `hostAction_writeReg` at each register's offset; `CMD` by what its word decodes to, the lengths by their
bound. -/
theorem registerWritesSetTheRegister : Obligations.RegisterWritesSetTheRegister := by
  intro s v
  refine ⟨?_, hostAction_writeReg .status v s, hostAction_writeReg .csumResult v s,
    fun hv => ⟨(hostAction_writeReg .wireLen v s).trans (writeLength_of_le hv _),
      (hostAction_writeReg .payLen v s).trans (writeLength_of_le hv _)⟩,
    hostAction_writeLength_refused, hostAction_writeReg (.field .cp) v s, hostAction_writeReg (.field .kp) v s,
    hostAction_writeReg (.field .sp) v s, hostAction_writeReg (.field .res0) v s, hostAction_writeReg (.field .ver) v s,
    hostAction_writeReg (.field .proto) v s, hostAction_writeReg (.field .csum) v s,
    hostAction_writeReg (.field .res1) v s, hostAction_writeReg (.field .key) v s, hostAction_writeReg (.field .seq) v s⟩
  refine (hostAction_writeReg .cmd v s).trans ?_
  cases hd : decodeWord v with
  | command i => exact issue_of_command hd _
  | illegal y =>
    refine (issue_of_illegal hd _).trans ?_
    rw [State.finish, statusWord_illegalCommand]
    rfl

/-- R34: a register access that is no whole word or not at a mapped offset is refused. -/
theorem hostAction_reg_refused {o : Nat} {w : Width} (h : ¬ (w = .word ∧ (regAt o).isSome = true)) (v : Word)
    (s : State) :
    (∃ e, hostAction (.readReg o w) s = .refused e) ∧ ∃ e, hostAction (.writeReg o w v) s = .refused e := by
  obtain ⟨e, he⟩ := resolveReg_error h
  exact ⟨⟨e, by simp only [hostAction, he]⟩, ⟨e, by simp only [hostAction, he]⟩⟩

/-- R34: an octet access at or over `BUF_MAX` is refused. -/
theorem hostAction_octet_refused {a : Nat} {s : State} (h : s.cfg.bufMax ≤ a) (b : Buf) (v : Byte) :
    (∃ e, hostAction (.writeOctet b a v) s = .refused e) ∧ ∃ e, hostAction (.readOctet b a) s = .refused e :=
  ⟨⟨_, if_neg h.not_gt⟩, ⟨_, if_neg h.not_gt⟩⟩

/-- Settles O9: the refused forms of each access, and `settle_of_refused`. -/
theorem actionsOutsideTheContractAreRefused : Obligations.ActionsOutsideTheContractAreRefused := by
  refine ⟨fun s o w v h => hostAction_reg_refused ?_ v s, fun s v h => hostAction_writeLength_refused h,
    fun s b a v h => hostAction_octet_refused h b v, fun s => ⟨_, rfl⟩, fun s a e h => settle_of_refused h⟩
  rw [regAt_isSome_iff]
  rintro ⟨hw, ho⟩
  exact h.elim (absurd hw) (by omega)

end Sys2Proof.Machine
end

section
/-! Octets: their order, and accesses to one and to a sequence of them: O10, O39 and O58. -/

namespace Sys2Proof.Machine

/-! ### Octet accesses -/

section
variable {s : State} {a : Nat} (h : a < s.cfg.bufMax)
include h

/-- R35: an octet write inside the buffer. -/
theorem hostAction_writeOctet (b : Buf) (v : Byte) :
    hostAction (.writeOctet b a v) s = .next ((s.setReply .nothing).setBuf b ((s.buf b).write a v)) := by
  cases b <;> exact if_pos h

/-- R35: a read of a written octet. -/
theorem hostAction_readOctet_of_written {b : Buf} {v : Byte} (hv : (s.buf b).read a = some v) :
    hostAction (.readOctet b a) s = .next (s.setReply (.octet v)) := by
  simp only [hostAction, readOctet, if_pos h, hv]

/-- R44: a read of an unwritten octet. -/
theorem hostAction_readOctet_of_unwritten {b : Buf} (hv : (s.buf b).read a = none) :
    hostAction (.readOctet b a) s = .fault .unwrittenByte := by
  simp only [hostAction, readOctet, if_pos h, hv]

end

/-- Settles O10: the three endings of an octet access inside the buffer, and what a written buffer reads as. -/
theorem octetAccessesReadAndWriteOneOctet : Obligations.OctetAccessesReadAndWriteOneOctet := fun s a h =>
  ⟨fun v => ⟨s.wire.write a v, hostAction_writeOctet h .wire v, fun c => s.wire.read_write a c v⟩,
    fun v => ⟨s.pay.write a v, hostAction_writeOctet h .pay v, fun c => s.pay.read_write a c v⟩,
    fun _ => ⟨fun _ => hostAction_readOctet_of_written h, hostAction_readOctet_of_unwritten h⟩⟩

/-! ### Octet sequences -/

/-- Settles O58: both halves are what reading an octet after a `MemWrite` gives. -/
theorem memWriteThenMemReadGivesTheOctets : Obligations.MemWriteThenMemReadGivesTheOctets := by
  intro m a p
  constructor
  · refine memRead_of_read fun j hj => ?_
    rw [read_memWrite, if_pos (by omega), Nat.add_sub_cancel_left]
  · intro c hc
    rw [read_memWrite, if_neg (by omega)]

/-! ### Octet order -/

/-- The octet of a register that starts at bit `k`, as a number. -/
theorem octet_toNat {n : Nat} (v : BitVec n) (k : Nat) : (v.extractLsb' k 8).toNat = v.toNat / 2 ^ k % 0x100 := by
  rw [BitVec.extractLsb'_toNat, Nat.shiftRight_eq_div_pow]

theorem be16_toNat (v : Half) : (be16 v).map BitVec.toNat = [v.toNat / 0x100, v.toNat % 0x100] := by
  have hhigh : v.toNat / 0x100 % 0x100 = v.toNat / 0x100 := Nat.mod_eq_of_lt (by have := v.isLt; omega)
  simp only [be16, List.map_cons, List.map_nil, octet_toNat, Nat.reducePow, hhigh, Nat.div_one]

theorem be32_toNat (v : Word) :
    (be32 v).map BitVec.toNat =
      [v.toNat / 0x1000000, v.toNat / 0x10000 % 0x100, v.toNat / 0x100 % 0x100, v.toNat % 0x100] := by
  have hhigh : v.toNat / 0x1000000 % 0x100 = v.toNat / 0x1000000 := Nat.mod_eq_of_lt (by have := v.isLt; omega)
  simp only [be32, List.map_cons, List.map_nil, octet_toNat, Nat.reducePow, hhigh, Nat.div_one]

/-- R37: `W16` of two octets that are there. -/
theorem w16_of_getElem? {s : List Byte} {i : Nat} {a b : Byte} (ha : s[i]? = some a) (hb : s[i + 1]? = some b) :
    w16 s i = octetPair a b := by
  simp only [w16, List.getD_eq_getElem?_getD, ha, hb, Option.getD_some]

/-- R37: two 16-bit parts side by side, read as 32 bits. -/
theorem w32_be16_be16 (c r : Half) : w32 (be16 c ++ be16 r) 0 = halfPair c r := by
  have hc : w16 (be16 c ++ be16 r) 0 = c := w16_be16 [] (be16 r) c
  have hr : w16 (be16 c ++ be16 r) 2 = r := w16_be16 (be16 c) [] r
  rw [w32, hc, hr]

/-- Settles O39: each primitive as a number. -/
theorem octetOrderIsBigEndian : Obligations.OctetOrderIsBigEndian := by
  refine ⟨be16_toNat, be32_toNat, fun s i a b ha hb => ?_, fun c r => ?_⟩
  · rw [w16_of_getElem? ha hb, octetPair_toNat]
  · rw [w32_be16_be16, halfPair_toNat]

end Sys2Proof.Machine
end

section
/-! Unwritten octets: when a command faults, what a fault leaves, and when an action goes on: O12, O13 and O55. -/

namespace Sys2Proof.Machine

/-! ### Reads of unwritten octets -/

/-- R42, R44: `MemRead` has no answer where an octet of its range is unwritten. -/
theorem memRead_eq_none {m : Memory} {a n j : Nat} (hj : j < n) (h : m.read (a + j) = none) :
    memRead m a n = none := by
  refine Option.not_isSome_iff_eq_none.1 fun hs => ?_
  have hw := (memRead_isSome_iff m a n).1 hs j hj
  rw [h] at hw
  cases hw

/-- R42: `MemRead` answers at the front of a range that is written. -/
theorem memRead_ne_none {m : Memory} {a n k : Nat} (hk : k ≤ n) (h : octetsWritten m a n) : memRead m a k ≠ none := by
  have hs := (memRead_isSome_iff m a k).2 fun j hj => h j (by omega)
  exact Option.isSome_iff_ne_none.1 hs

/-! ### Lengths as numbers -/

/-- R60, R61: the length of the image of a header with legal flags. -/
theorem encodeLength_eq {s : State} (h : encodeFieldsLegal s.f) :
    encodeLength s = 4 + 4 * s.f.cp.toNat + 4 * s.f.kp.toNat + 4 * s.f.sp.toNat + s.payLen.toNat := by
  obtain ⟨hc, hk, hs, -⟩ := h
  simp only [encodeLength, Shape.headerLength, shapeOfFields, partLength_flag hc, partLength_flag hk, partLength_flag hs]

/-- A flag bit of a received word counts its part's octets. -/
theorem partLength_getLsbD (w : Half) (k : Nat) : partLength (w.getLsbD k) = 4 * (w.toNat / 2 ^ k % 2) := by
  rw [BitVec.getLsbD, Nat.testBit_eq_decide_div_mod_eq]
  have : w.toNat / 2 ^ k % 2 = 0 ∨ w.toNat / 2 ^ k % 2 = 1 := by omega
  rcases this with e | e <;> simp [partLength, e]

/-- R57, R60: the header length that the first octet of word 0 asks for. -/
theorem headerLength_octetPair (hi lo : Byte) :
    (shapeOfWord0 (octetPair hi lo)).headerLength =
      4 + 4 * (hi.toNat / 0x80) + 4 * (hi.toNat / 0x20 % 2) + 4 * (hi.toNat / 0x10 % 2) := by
  have := hi.isLt
  have := lo.isLt
  simp only [Shape.headerLength, shapeOfWord0, partLength_getLsbD, octetPair_toNat]
  omega

/-! ### Commands that fault -/

/-- Word 0 of an image whose first two octets are written. -/
theorem memRead_word0 {m : Memory} {a : Nat} {hi lo : Byte} (hhi : m.read a = some hi) (hlo : m.read (a + 1) = some lo) :
    memRead m a 2 = some [hi, lo] := by
  simp only [memRead, hhi, hlo]

/-- R44: `DECODE` faults where an octet of word 0 is unwritten. -/
theorem execDecode_fault_of_word0 {s : State} {skip : Nat} (hm : skip + 4 ≤ s.wireLen.toNat)
    (h : s.wire.read skip = none ∨ s.wire.read (skip + 1) = none) : execDecode skip s = .fault .unwrittenByte := by
  refine execDecode_of_word0_unwritten (by rw [remaining_eq]; omega) ?_
  rcases h with h | h
  · exact memRead_eq_none (j := 0) (by omega) h
  · exact memRead_eq_none (j := 1) (by omega) h

/-- R44: `DECODE` faults where an octet of an image with a whole header is unwritten. -/
theorem execDecode_fault_of_image {s : State} {skip a : Nat} {hi lo : Byte} (hm : skip + 4 ≤ s.wireLen.toNat)
    (hhi : s.wire.read skip = some hi) (hlo : s.wire.read (skip + 1) = some lo)
    (hh : skip + (shapeOfWord0 (octetPair hi lo)).headerLength ≤ s.wireLen.toNat) (hge : skip ≤ a)
    (hlt : a < s.wireLen.toNat) (ha : s.wire.read a = none) : execDecode skip s = .fault .unwrittenByte := by
  have hrem := remaining_eq skip s
  have hw0 : w16 [hi, lo] 0 = octetPair hi lo := rfl
  obtain ⟨j, rfl⟩ := Nat.exists_eq_add_of_le hge
  exact execDecode_of_unwritten (by omega) (memRead_word0 hhi hlo) (by rw [hw0]; omega)
    (memRead_eq_none (by omega) ha)

/-- Settles O12: the fault endings of the three commands, their conditions as numbers. -/
theorem commandsFaultOnUnwrittenOctets : Obligations.CommandsFaultOnUnwrittenOctets := by
  refine ⟨fun s hf hl ⟨j, hj, hr⟩ => ?_, fun s hf ⟨j, hj, hr⟩ => ?_, fun s skip hm => ⟨?_, ?_⟩⟩
  · exact execEncode_of_unwritten ((encodeChecked_pass s.f).2 hf) (by rwa [encodeLength_eq hf])
      (memRead_eq_none hj (by rwa [Nat.zero_add]))
  · exact execChecksum_of_unwritten ((checksumChecked_pass s.f).2 hf) (memRead_eq_none hj (by rwa [Nat.zero_add]))
  · exact execDecode_fault_of_word0 hm
  · rintro hi lo hhi hlo hh ⟨a, hge, hlt, ha⟩
    rw [← headerLength_octetPair hi lo] at hh
    exact execDecode_fault_of_image hm hhi hlo hh hge hlt ha

/-! ### What a fault leaves -/

/-- R44: an input other than a `CMD` write has done nothing when it faults. -/
theorem beforeFault_of_not_cmdWrite {i : Input} (h : ∀ w : Word, i ≠ .host (.writeReg 0x00 .word w)) (s : State) :
    beforeFault i s = s := by
  unfold beforeFault
  split
  · split
    · next hr =>
      obtain ⟨rfl, ho⟩ := resolveReg_ok hr
      obtain rfl := regAt_cmd ho
      exact absurd rfl (h _)
    · rfl
  · rfl

/-- Settles O13: `settle_of_fault`, with what stands before the mark is set. -/
theorem faultsLeaveTheStateMarked : Obligations.FaultsLeaveTheStateMarked := by
  constructor
  · rintro s w ⟨e, he⟩
    exact settle_of_fault he
  · rintro s i hi ⟨e, he⟩
    rw [settle_of_fault he, beforeFault_of_not_cmdWrite hi]
    rfl

/-! ### Actions inside the contract -/

/-- R100, R118: a command whose octets are written goes on. -/
theorem exec_of_ready {i : Instr} {s : State} (h : commandReady i s) : ∃ t, exec i s = .next t := by
  cases i with
  | encode =>
    obtain ⟨i, -, he⟩ | ⟨-, -, he⟩ | ⟨-, -, hp, -⟩ | ⟨p, -, -, -, he⟩ := execEncode_cases s
    · exact ⟨_, he⟩
    · exact ⟨_, he⟩
    · exact absurd hp (memRead_ne_none le_rfl h)
    · exact ⟨_, he⟩
  | decode skip =>
    obtain ⟨-, he⟩ | ⟨hm, hw, -⟩ | ⟨first, -, -, ⟨-, he⟩ | ⟨-, hb, -⟩ | ⟨b, -, -, he⟩⟩ := execDecode_cases skip s
    · exact ⟨_, he⟩
    · exact absurd hw (memRead_ne_none (by omega) h)
    · exact ⟨_, he⟩
    · exact absurd hb (memRead_ne_none le_rfl h)
    · exact ⟨_, he⟩
  | checksum =>
    obtain ⟨i, -, he⟩ | ⟨-, hp, -⟩ | ⟨p, -, -, he⟩ := execChecksum_cases s
    · exact ⟨_, he⟩
    · exact absurd hp (memRead_ne_none le_rfl h)
    · exact ⟨_, he⟩

/-- The issue of a command reads the octets it reads from the state of the `CMD` write. -/
theorem commandReady_issue {i : Instr} {s : State} (h : commandReady i s) (r : Reply) (w : Word) :
    commandReady i ((s.setReply r).setCmd w) := by
  cases i <;> exact h

/-- R15, R118: a `CMD` write goes on when the octets its command reads are written. -/
theorem issue_of_ready {w : Word} {s : State} (h : ∀ i, decodeWord w = .command i → commandReady i s) :
    ∃ t, issue w (s.setReply .nothing) = .next t := by
  cases hd : decodeWord w with
  | command i =>
    rw [issue_of_command hd]
    exact exec_of_ready (commandReady_issue (h i hd) _ w)
  | illegal y => exact ⟨_, issue_of_illegal hd _⟩

/-- R33, R34: a write of a mapped register goes on, a length within the buffers and a command that is ready. -/
theorem writeReg_goes_on {r : Reg} {v : Word} {s : State}
    (hlen : r = .wireLen ∨ r = .payLen → v.toNat ≤ s.cfg.bufMax)
    (hcmd : r = .cmd → ∀ i, decodeWord v = .command i → commandReady i s) :
    ∃ t, writeReg r v (s.setReply .nothing) = .next t := by
  cases r with
  | cmd => exact issue_of_ready (hcmd rfl)
  | wireLen => exact ⟨_, writeLength_of_le (hlen (.inl rfl)) _⟩
  | payLen => exact ⟨_, writeLength_of_le (hlen (.inr rfl)) _⟩
  | status | csumResult | field i => exact ⟨_, rfl⟩

/-- Settles O55: each action by its equation inside the contract. -/
theorem actionsInTheContractAreCarriedOut : Obligations.ActionsInTheContractAreCarriedOut := by
  intro s a h hready
  cases a with
  | readReg o w =>
    obtain ⟨rfl, ho⟩ := h
    obtain ⟨r, hr⟩ := Option.isSome_iff_exists.1 ho
    obtain rfl := regOffset_of_regAt hr
    exact ⟨_, hostAction_readReg r s⟩
  | writeReg o w v =>
    obtain ⟨rfl, ho, hlen⟩ := h
    obtain ⟨r, hr⟩ := Option.isSome_iff_exists.1 ho
    obtain rfl := regOffset_of_regAt hr
    rw [hostAction_writeReg]
    refine writeReg_goes_on (fun hr => hlen ?_) fun hr i => hready v i ?_
    · exact hr.imp (congrArg regOffset) (congrArg regOffset)
    · subst hr
      rfl
  | writeOctet b a v => exact ⟨_, hostAction_writeOctet h b v⟩
  | readOctet b a =>
    obtain ⟨ha, hw⟩ := h
    obtain ⟨v, hv⟩ := Option.isSome_iff_exists.1 hw
    exact ⟨_, hostAction_readOctet_of_written ha hv⟩
  | other => exact h.elim

end Sys2Proof.Machine
end

section
/-! What no step reads: the parameter `BASE`: O53. -/

namespace Sys2Proof.Machine

/-- A state with the parameter `BASE` replaced (R40). -/
def State.withBase (base : Nat) (s : State) : State := { s with cfg := { s.cfg with base := base } }

@[simp] theorem mapNext_refused (u : State → State) (e : Refusal) : mapNext u (.refused e) = .refused e := rfl

section
variable (base : Nat) (s : State)

/-! ### What is read and written beside `BASE` -/

@[simp] theorem State.withBase_bufMax : (s.withBase base).cfg.bufMax = s.cfg.bufMax := rfl

@[simp] theorem State.withBase_readReg (r : Reg) : (s.withBase base).readReg r = s.readReg r := by
  cases r <;> rfl

@[simp] theorem State.withBase_buf (b : Buf) : (s.withBase base).buf b = s.buf b := by
  cases b <;> rfl

@[simp] theorem State.withBase_setBuf (b : Buf) (m : Memory) :
    (s.withBase base).setBuf b m = (s.setBuf b m).withBase base := by
  cases b <;> rfl

/-! ### Commands -/

theorem execEncode_withBase : execEncode (s.withBase base) = mapNext (State.withBase base) (execEncode s) := by
  obtain ⟨i, hf, he⟩ | ⟨hf, hl, he⟩ | ⟨hf, hl, hp, he⟩ | ⟨p, hf, hl, hp, he⟩ := execEncode_cases s <;> rw [he]
  · exact execEncode_of_invalid hf
  · exact execEncode_of_overflow hf hl
  · exact execEncode_of_unwritten hf hl hp
  · exact execEncode_of_read (s := s.withBase base) hf hl hp

theorem execDecode_withBase (skip : Nat) :
    execDecode skip (s.withBase base) = mapNext (State.withBase base) (execDecode skip s) := by
  obtain ⟨hm, he⟩ | ⟨hm, hw, he⟩ | ⟨first, hm, hw, ⟨hh, he⟩ | ⟨hh, hb, he⟩ | ⟨b, hh, hb, he⟩⟩ :=
      execDecode_cases skip s <;> rw [he]
  · exact execDecode_of_short hm
  · exact execDecode_of_word0_unwritten hm hw
  · exact execDecode_of_truncated hm hw hh
  · exact execDecode_of_unwritten hm hw hh hb
  · exact execDecode_of_read (s := s.withBase base) hm hw hh hb

theorem execChecksum_withBase : execChecksum (s.withBase base) = mapNext (State.withBase base) (execChecksum s) := by
  obtain ⟨i, hf, he⟩ | ⟨hf, hp, he⟩ | ⟨p, hf, hp, he⟩ := execChecksum_cases s <;> rw [he]
  · exact execChecksum_of_invalid hf
  · exact execChecksum_of_unwritten hf hp
  · exact execChecksum_of_read (s := s.withBase base) hf hp

theorem exec_withBase (i : Instr) : exec i (s.withBase base) = mapNext (State.withBase base) (exec i s) := by
  cases i with
  | encode => exact execEncode_withBase base s
  | decode skip => exact execDecode_withBase base s skip
  | checksum => exact execChecksum_withBase base s

/-! ### Inputs -/

theorem issue_withBase (w : Word) : issue w (s.withBase base) = mapNext (State.withBase base) (issue w s) := by
  cases hd : decodeWord w with
  | command i =>
    rw [issue_of_command hd, issue_of_command hd]
    exact exec_withBase base (s.setCmd w) i
  | illegal y =>
    rw [issue_of_illegal hd, issue_of_illegal hd]
    rfl

theorem writeLength_withBase (v : Word) (t : State) :
    writeLength v (s.withBase base) (t.withBase base) = mapNext (State.withBase base) (writeLength v s t) := by
  obtain h | h := le_or_gt v.toNat s.cfg.bufMax
  · rw [writeLength_of_le h, writeLength_of_le (s := s.withBase base) h, mapNext_next]
  · rw [writeLength_of_gt h, writeLength_of_gt (s := s.withBase base) h, mapNext_refused]

theorem writeReg_withBase (r : Reg) (v : Word) :
    writeReg r v (s.withBase base) = mapNext (State.withBase base) (writeReg r v s) := by
  cases r with
  | cmd => exact issue_withBase base s v
  | wireLen => exact writeLength_withBase base s v (s.setWireLen v)
  | payLen => exact writeLength_withBase base s v (s.setPayLen v)
  | status | csumResult | field i => rfl

theorem writeOctet_withBase (b : Buf) (a : Nat) (v : Byte) :
    writeOctet b a v (s.withBase base) = mapNext (State.withBase base) (writeOctet b a v s) := by
  simp only [writeOctet, State.withBase_bufMax, State.withBase_buf, State.withBase_setBuf]
  split <;> rfl

theorem readOctet_withBase (b : Buf) (a : Nat) :
    readOctet b a (s.withBase base) = mapNext (State.withBase base) (readOctet b a s) := by
  simp only [readOctet, State.withBase_bufMax, State.withBase_buf]
  split
  · cases (s.buf b).read a <;> rfl
  · rfl

theorem hostAction_withBase (a : HostAction) :
    hostAction a (s.withBase base) = mapNext (State.withBase base) (hostAction a s) := by
  cases a with
  | readReg o w =>
    simp only [hostAction, State.withBase_readReg]
    cases resolveReg o w <;> rfl
  | writeReg o w v =>
    simp only [hostAction]
    cases resolveReg o w with
    | ok r => exact writeReg_withBase base (s.setReply .nothing) r v
    | error e => rfl
  | writeOctet b a v => exact writeOctet_withBase base (s.setReply .nothing) b a v
  | readOctet b a => exact readOctet_withBase base s b a
  | other => rfl

theorem perform_withBase (i : Input) :
    perform i (s.withBase base) = mapNext (State.withBase base) (perform i s) := by
  cases i with
  | host a => exact hostAction_withBase base s a
  | reset => rfl

/-- R40: a step of a state with another `BASE` ends in the same way, that `BASE` kept. -/
theorem step_withBase : step (s.withBase base) = mapNext (State.withBase base) (step s) := by
  cases hp : s.pending with
  | nil => rw [step_of_idle hp, step_of_idle (s := s.withBase base) hp, mapNext_next]
  | cons i rest =>
    rw [step_of_pending hp, step_of_pending (s := s.withBase base) hp]
    exact perform_withBase base (s.setPending rest) i

end

/-- Settles O53: `step_withBase`, read off each of the three outcomes. -/
theorem nothingDependsOnTheBaseAddress : Obligations.NothingDependsOnTheBaseAddress := by
  intro s base
  have hstep := step_withBase base s
  obtain ⟨hnext, hfault⟩ := next_and_fault_of_mapNext hstep
  refine ⟨hnext, hfault, fun e he => ?_⟩
  rw [he] at hstep
  exact hstep

end Sys2Proof.Machine
end

section
/-! Command words: the decoder against the encoder and the opcode table, illegal words, the fetched word: O1, O2, O3, O4
and O6. -/

namespace Sys2Proof

/-! ### The decoder and the encoder -/

/-- R51: the fields of a word that spells a command, command by command. -/
theorem fields_of_decodeWord {w : Word} {i : Instr} (h : decodeWord w = .command i) :
    rsvField w = 0 ∧
      ((i = .encode ∧ skipField w = 0 ∧ opField w = 0x01) ∨
        (i = .decode (skipField w).toNat ∧ opField w = 0x02) ∨
        (i = .checksum ∧ skipField w = 0 ∧ opField w = 0x03)) := by
  unfold decodeWord at h
  split_ifs at h with hrsv hop hskip hop' hop'' hskip <;> cases h
  · exact ⟨not_not.1 hrsv, .inl ⟨rfl, hskip, hop⟩⟩
  · exact ⟨not_not.1 hrsv, .inr (.inl ⟨rfl, hop'⟩)⟩
  · exact ⟨not_not.1 hrsv, .inr (.inr ⟨rfl, hskip, hop''⟩)⟩

/-- R50, R51: the word of a command that a word can spell decodes to it. -/
theorem decodeWord_encode {i : Instr} (h : i.wf) : decodeWord (encode i) = .command i := by
  cases i with
  | encode => decide
  | decode skip =>
    have hskip : (BitVec.ofNat 16 skip).toNat = skip := by
      have : skip ≤ 0xFFFF := h
      rw [BitVec.toNat_ofNat]
      omega
    simp [decodeWord, encode, hskip]
  | checksum => decide

/-- R50: the word of a `DECODE` is laid out from its `SKIP` field. -/
theorem encode_decode_skipField {w : Word} (hrsv : rsvField w = 0) (hop : opField w = 0x02) :
    encode (.decode (skipField w).toNat) = w := by
  rw [encode, BitVec.ofNat_toNat, BitVec.setWidth_eq, ← hop, commandWord_fields w hrsv]

theorem wf_decode_skipField (w : Word) : (Instr.decode (skipField w).toNat).wf :=
  Nat.le_of_lt_succ (skipField w).isLt

/-- R50, R51: a word that decodes to a command is that command's word, laid out from its own fields. -/
theorem encode_of_decodeWord {w : Word} {i : Instr} (h : decodeWord w = .command i) : i.wf ∧ encode i = w := by
  obtain ⟨hrsv, ⟨rfl, hskip, hop⟩ | ⟨rfl, hop⟩ | ⟨rfl, hskip, hop⟩⟩ := fields_of_decodeWord h
  · refine ⟨trivial, ?_⟩
    rw [encode, ← hskip, ← hop, commandWord_fields w hrsv]
  · exact ⟨wf_decode_skipField w, encode_decode_skipField hrsv hop⟩
  · refine ⟨trivial, ?_⟩
    rw [encode, ← hskip, ← hop, commandWord_fields w hrsv]

/-- Settles O2: `decodeWord_encode` and `encode_of_decodeWord`. -/
theorem decodeAndEncodeAgree : Obligations.DecodeAndEncodeAgree :=
  ⟨fun _ => decodeWord_encode, fun _ _ => encode_of_decodeWord⟩

/-- Settles O1: each word is the word of its command. -/
theorem commandWordsDecodeAsWrittenOut : Obligations.CommandWordsDecodeAsWrittenOut :=
  ⟨decodeWord_encode (i := .encode) trivial, decodeWord_encode (i := .decode 0) (by decide),
    decodeWord_encode (i := .decode 20) (by decide), decodeWord_encode (i := .decode 65535) (by decide),
    decodeWord_encode (i := .checksum) trivial⟩

/-! ### The opcode table -/

/-- R51: the rows of the opcode table. -/
def opcodeTable : List OpcodeRow := [opcodeRow .encode, opcodeRow (.decode 0), opcodeRow .checksum]

theorem mem_opcodeTable {r : OpcodeRow} : r ∈ opcodeTable ↔ ∃ i, r = opcodeRow i := by
  constructor
  · simp only [opcodeTable, List.mem_cons, List.not_mem_nil, or_false]
    rintro (rfl | rfl | rfl) <;> exact ⟨_, rfl⟩
  · rintro ⟨i, rfl⟩
    cases i <;> simp [opcodeTable, opcodeRow]

/-- R51: the row of a command matches its word (`Laws.RowMatch`). -/
theorem opcodeRow_matches_encode (i : Instr) : (opcodeRow i).Matches (encode i) := by
  cases i with
  | encode => exact Laws.RowMatch.encode.2
  | decode skip => exact (Laws.RowMatch.decode skip).2
  | checksum => exact Laws.RowMatch.checksum.2

/-- A row that masks nothing matches its own bits only. -/
theorem matches_allOnes {bits w : Word} (h : OpcodeRow.Matches ⟨bits, 0xFFFFFFFF⟩ w) : w = bits := by
  rw [OpcodeRow.Matches, show (0xFFFFFFFF : Word) = BitVec.allOnes 32 by decide, BitVec.and_allOnes] at h
  exact h

/-- R51: the mask of the `DECODE` row leaves `RSV` and `OP`, so a word that matches is the word of a `DECODE`. -/
theorem encode_decode_of_matches {w : Word} (h : OpcodeRow.Matches ⟨0x00000002, 0x0000FFFF⟩ w) :
    encode (.decode (skipField w).toNat) = w := by
  have hlow : w.toNat % 0x10000 = 2 := by
    have := congrArg BitVec.toNat h
    rwa [BitVec.toNat_and, show (0x0000FFFF : Word).toNat = 2 ^ 16 - 1 by decide,
      Nat.and_two_pow_sub_one_eq_mod] at this
  have hrsv : rsvField w = 0 := BitVec.eq_of_toNat_eq (by rw [rsvField_toNat]; change _ = 0; omega)
  have hop : opField w = 0x02 := BitVec.eq_of_toNat_eq (by rw [opField_toNat]; change _ = 2; omega)
  exact encode_decode_skipField hrsv hop

/-- R51: a row matches the words of its own commands and no others. -/
theorem opcodeRow_matches_iff {i : Instr} {w : Word} :
    (opcodeRow i).Matches w ↔ ∃ j, decodeWord w = .command j ∧ opcodeRow j = opcodeRow i := by
  constructor
  · intro h
    cases i with
    | encode =>
      obtain rfl := matches_allOnes h
      exact ⟨.encode, by decide, rfl⟩
    | decode skip =>
      have hd := decodeWord_encode (wf_decode_skipField w)
      rw [encode_decode_of_matches h] at hd
      exact ⟨_, hd, rfl⟩
    | checksum =>
      obtain rfl := matches_allOnes h
      exact ⟨.checksum, by decide, rfl⟩
  · rintro ⟨j, hd, hrow⟩
    rw [← hrow, ← (encode_of_decodeWord hd).2]
    exact opcodeRow_matches_encode j

/-- A word spells a command iff exactly one row of the table matches it: the row of that command (R51). -/
theorem decodes_iff_existsUnique_row (w : Word) :
    (∃ i, decodeWord w = .command i) ↔ ∃! r, r ∈ opcodeTable ∧ r.Matches w := by
  constructor
  · rintro ⟨i, hi⟩
    refine ⟨opcodeRow i, ⟨mem_opcodeTable.2 ⟨i, rfl⟩, opcodeRow_matches_iff.2 ⟨i, hi, rfl⟩⟩, ?_⟩
    rintro r ⟨hr, hm⟩
    obtain ⟨k, rfl⟩ := mem_opcodeTable.1 hr
    obtain ⟨j, hj, hrow⟩ := opcodeRow_matches_iff.1 hm
    obtain rfl : i = j := by simpa [hi] using hj
    exact hrow.symm
  · rintro ⟨r, ⟨hr, hm⟩, -⟩
    obtain ⟨k, rfl⟩ := mem_opcodeTable.1 hr
    obtain ⟨j, hj, -⟩ := opcodeRow_matches_iff.1 hm
    exact ⟨j, hj⟩

/-- R50: the operand of a `DECODE` is the upper half of its word. -/
theorem skip_of_decodeWord {w : Word} {k : Nat} (h : decodeWord w = .command (.decode k)) : k = w.toNat / 0x10000 := by
  obtain ⟨-, ⟨hi, -⟩ | ⟨hi, -⟩ | ⟨hi, -⟩⟩ := fields_of_decodeWord h <;> cases hi
  exact skipField_toNat w

/-! The rows are those of three different commands, whatever the `SKIP`. -/

theorem opcodeRow_eq_encode {i : Instr} : opcodeRow i = opcodeRow .encode ↔ i = .encode := by
  cases i <;> simp [opcodeRow]

theorem opcodeRow_eq_decode {i : Instr} {skip : Nat} :
    opcodeRow i = opcodeRow (.decode skip) ↔ ∃ k, i = .decode k := by
  cases i <;> simp [opcodeRow]

theorem opcodeRow_eq_checksum {i : Instr} : opcodeRow i = opcodeRow .checksum ↔ i = .checksum := by
  cases i <;> simp [opcodeRow]

/-- Settles O3: `opcodeRow_matches_iff` for each row, and `decodes_iff_existsUnique_row`. -/
theorem wordSpellsACommandIffOneRowMatches : Obligations.WordSpellsACommandIffOneRowMatches := by
  intro w
  have hencode : (opcodeRow .encode).Matches w ↔ decodeWord w = .command .encode := by
    simp [opcodeRow_matches_iff, opcodeRow_eq_encode]
  have hdecode : (opcodeRow (.decode 0)).Matches w ↔ ∃ k, decodeWord w = .command (.decode k) := by
    rw [opcodeRow_matches_iff]
    simp only [opcodeRow_eq_decode]
    exact ⟨fun ⟨_, hd, k, hk⟩ => ⟨k, hk ▸ hd⟩, fun ⟨k, hd⟩ => ⟨_, hd, k, rfl⟩⟩
  have hchecksum : (opcodeRow .checksum).Matches w ↔ decodeWord w = .command .checksum := by
    simp [opcodeRow_matches_iff, opcodeRow_eq_checksum]
  exact ⟨hencode.symm, hdecode.symm, fun _ => skip_of_decodeWord, hchecksum.symm, decodes_iff_existsUnique_row w⟩

/-! ### Illegal words -/

/-- R52: the illegal words, by their fields. -/
theorem illegal_iff (w : Word) :
    (∃ y, decodeWord w = .illegal y) ↔
      (opField w ≠ 0x01#8 ∧ opField w ≠ 0x02#8 ∧ opField w ≠ 0x03#8) ∨ rsvField w ≠ 0#8 ∨
        (skipField w ≠ 0#16 ∧ (opField w = 0x01#8 ∨ opField w = 0x03#8)) := by
  unfold decodeWord
  split_ifs with hrsv hop hskip hop' hop'' hskip <;> simp_all

/-- R50, R52: the illegal words, as numbers. -/
theorem illegal_iff_toNat (w : Word) :
    (∃ y, decodeWord w = .illegal y) ↔
      (w.toNat % 0x100 = 0 ∨ 4 ≤ w.toNat % 0x100) ∨ w.toNat / 0x100 % 0x100 ≠ 0 ∨
        (w.toNat / 0x10000 ≠ 0 ∧ (w.toNat % 0x100 = 1 ∨ w.toNat % 0x100 = 3)) := by
  simp only [illegal_iff, ne_eq, ← BitVec.toNat_inj, opField_toNat, rsvField_toNat, skipField_toNat, BitVec.toNat_ofNat,
    Nat.reducePow, Nat.reduceMod]
  omega

namespace Machine

/-- R52: what the `CMD` write of an illegal word does. -/
theorem hostAction_cmdWrite_illegal {w : Word} {y : IllegalWord} (h : decodeWord w = .illegal y) (s : State) :
    hostAction (.writeReg 0x00 .word w) s =
      .next { s with cmd := w, status := 0x00000003, reply := .nothing } := by
  refine (hostAction_writeReg .cmd w s).trans ((issue_of_illegal h _).trans ?_)
  rw [State.finish, statusWord_illegalCommand]
  rfl

/-- Settles O4: `illegal_iff_toNat`, and the `CMD` write of an illegal word. -/
theorem illegalWordsFinishWithIllegalCommand : Obligations.IllegalWordsFinishWithIllegalCommand :=
  fun w s => ⟨illegal_iff_toNat w, fun ⟨_, h⟩ => ⟨_, hostAction_cmdWrite_illegal h s⟩⟩

/-! ### The fetched word -/

/-- A whole table word stands in the command word as it is. -/
theorem tableWord_32 (w : Nat) : tableWord 32 w = BitVec.ofNat 32 w :=
  BitVec.eq_of_toNat_eq (by simp [tableWord])

/-- A table word that is read as a command decodes to it. -/
theorem decodeWord_of_tableWord {w : Nat} {i : Instr} (h : decodeTableWord 32 w = some i) :
    decodeWord (BitVec.ofNat 32 w) = .command i := by
  rw [decodeTableWord, tableWord_32] at h
  cases hd : decodeWord (BitVec.ofNat 32 w) <;> rw [hd] at h <;> cases h
  rfl

/-- Settles O6: the step takes the `CMD` write in front, which is the command its word decodes to. -/
theorem fetchedTableWordRuns : Obligations.FetchedTableWordRuns := by
  intro s w i h
  have hpending : (s.withFetchWord 32 w).pending =
      .host (.writeReg 0x00 .word (BitVec.ofNat 32 w)) :: s.pending := by
    rw [State.withFetchWord, tableWord_32, State.setPending_pending]
  rw [step_of_pending hpending, perform_cmdWrite_of_command (decodeWord_of_tableWord h)]
  rfl

end Machine

end Sys2Proof
end

section
/-! Word 0: O18, and bit 14 in `DECODE`: O28. -/

namespace Sys2Proof.Machine

/-! ### Word 0 as a number -/

/-- The OR of R56's terms, each inside its own bits, is their sum. -/
theorem or_word0Terms {c k s r v : Nat} (hk : k ≤ 1) (hs : s ≤ 1) (hr : r ≤ 0x1FF) (hv : v ≤ 7) :
    (c <<< 15) ||| (k <<< 13) ||| (s <<< 12) ||| (r <<< 3) ||| v =
      c * 0x8000 + k * 0x2000 + s * 0x1000 + r * 8 + v := by
  rw [Nat.or_assoc, Nat.or_assoc, Nat.or_assoc, ← Nat.shiftLeft_add_eq_or_of_lt (b := v) (by omega),
    ← Nat.shiftLeft_add_eq_or_of_lt (i := 12), ← Nat.shiftLeft_add_eq_or_of_lt (i := 13),
    ← Nat.shiftLeft_add_eq_or_of_lt (i := 15)]
  all_goals simp only [Nat.shiftLeft_eq]; omega

theorem lowHalf_toNat {x : Word} (h : x.toNat < 0x10000) : (lowHalf x).toNat = x.toNat := by
  rw [lowHalf_eq, BitVec.toNat_ofNat, Nat.mod_eq_of_lt h]

/-- A shifted term that stays inside word 0. -/
theorem lowHalf_shiftLeft_toNat {x : Word} {i : Nat} (h : x.toNat * 2 ^ i < 0x10000) :
    (lowHalf x <<< i).toNat = x.toNat <<< i := by
  rw [BitVec.toNat_shiftLeft, lowHalf_eq, BitVec.toNat_ofNat, Nat.shiftLeft_eq, Nat.shiftLeft_eq, Nat.mod_mul_mod,
    Nat.mod_eq_of_lt h]

section
variable {f : Fields} (h : encodeFieldsLegal f)
include h

/-- R56: word 0 of a legal header. -/
theorem word0_toNat_or :
    (word0 f).toNat =
      (f.cp.toNat <<< 15) ||| (f.kp.toNat <<< 13) ||| (f.sp.toNat <<< 12) ||| (f.res0.toNat <<< 3) ||| f.ver.toNat := by
  obtain ⟨hc, hk, hs, hr, hv, -⟩ := h
  simp only [word0, BitVec.toNat_or]
  rw [lowHalf_shiftLeft_toNat, lowHalf_shiftLeft_toNat, lowHalf_shiftLeft_toNat, lowHalf_shiftLeft_toNat, lowHalf_toNat]
  all_goals omega

/-- R56: word 0 of a legal header, as a sum. -/
theorem word0_toNat :
    (word0 f).toNat =
      f.cp.toNat * 0x8000 + f.kp.toNat * 0x2000 + f.sp.toNat * 0x1000 + f.res0.toNat * 8 + f.ver.toNat := by
  rw [word0_toNat_or h]
  obtain ⟨-, hk, hs, hr, hv, -⟩ := h
  exact or_word0Terms hk hs hr hv

/-- R55: a bit of word 0, from the sum. -/
theorem word0_getLsbD (i : Nat) :
    (word0 f).getLsbD i =
      decide ((f.cp.toNat * 0x8000 + f.kp.toNat * 0x2000 + f.sp.toNat * 0x1000 + f.res0.toNat * 8 + f.ver.toNat) /
        2 ^ i % 2 = 1) := by
  rw [BitVec.getLsbD, Nat.testBit_eq_decide_div_mod_eq, word0_toNat h]

theorem word0_getLsbD_14 : (word0 f).getLsbD 14 = false := by
  rw [word0_getLsbD h]
  obtain ⟨hc, hk, hs, hr, hv, -⟩ := h
  exact decide_eq_false (by omega)

end

theorem eq_one_iff_toNat {v : Word} : v = 1#32 ↔ v.toNat = 1 := by
  rw [← BitVec.toNat_inj, BitVec.toNat_ofNat]

/-- Settles O18: the OR of the terms, and each bit field from their sum. -/
theorem word0PlacesTheFlagsAndFields : Obligations.Word0PlacesTheFlagsAndFields := by
  intro f h
  have hsum := word0_toNat h
  simp only [word0_getLsbD h, eq_one_iff_toNat, decide_eq_decide, BitVec.extractLsb'_toNat, Nat.shiftRight_eq_div_pow]
  refine ⟨word0_toNat_or h, ?_, decide_eq_false ?_, ?_⟩ <;>
    obtain ⟨hc, hk, hs, hr, hv, -⟩ := h <;> omega

/-! ### Bit 14 of a received word 0 -/

/-- A received image with bit 14 of its word 0 flipped: bit 6 of the first octet (R36). -/
def flipBit14 : List Byte → List Byte
  | [] => []
  | b :: r => (b ^^^ 0x40) :: r

theorem drop_flipBit14 (b : List Byte) {n : Nat} (h : 0 < n) : (flipBit14 b).drop n = b.drop n := by
  obtain ⟨n, rfl⟩ := Nat.exists_eq_add_one.2 h
  cases b <;> rfl

/-- A word behind the first octet is as before. -/
theorem w16_flipBit14 (b : List Byte) {i : Nat} (h : 0 < i) : w16 (flipBit14 b) i = w16 b i := by
  obtain ⟨i, rfl⟩ := Nat.exists_eq_add_one.2 h
  cases b <;> rfl

theorem w32_flipBit14 (b : List Byte) {i : Nat} (h : 0 < i) : w32 (flipBit14 b) i = w32 b i := by
  rw [w32, w16_flipBit14 b h, w16_flipBit14 b (by omega), w32]

/-- A change of the high octet is a change of the upper half of the word. -/
theorem octetPair_xor (hi lo d : Byte) : octetPair (hi ^^^ d) lo = octetPair hi lo ^^^ octetPair d 0 := by
  ext i hi
  by_cases h : i < 8
  · simp [octetPair, h]
  · have : lo.getLsbD i = false := BitVec.getLsbD_of_ge lo i (by omega)
    simp [octetPair, h, this]

/-- R57: no flag is in bit 14. -/
theorem shapeOfWord0_flip (w : Half) : shapeOfWord0 (w ^^^ 0x4000) = shapeOfWord0 w := by
  simp [shapeOfWord0]

/-- Word 0 of a flipped image. -/
theorem w16_flipBit14_zero (hi : Byte) (r : List Byte) :
    w16 (flipBit14 (hi :: r)) 0 = w16 (hi :: r) 0 ^^^ 0x4000 :=
  octetPair_xor hi ((hi :: r).getD 1 0) 0x40

theorem shapeOfWord0_flipBit14 (b : List Byte) : shapeOfWord0 (w16 (flipBit14 b) 0) = shapeOfWord0 (w16 b 0) := by
  cases b with
  | nil => rfl
  | cons hi r => rw [w16_flipBit14_zero, shapeOfWord0_flip]

/-- R58: a flipped image decodes to the same field registers. -/
theorem decodedFields_flipBit14 (b : List Byte) : decodedFields (flipBit14 b) = decodedFields b := by
  have hshape := shapeOfWord0_flipBit14 b
  have hkey : 0 < (shapeOfWord0 (w16 b 0)).keyOffset := by simp [Shape.keyOffset]
  have hseq : 0 < (shapeOfWord0 (w16 b 0)).seqOffset := by simp [Shape.seqOffset]
  have hres0 : (w16 (flipBit14 b) 0).extractLsb' 3 9 = (w16 b 0).extractLsb' 3 9 := by
    cases b with
    | nil => rfl
    | cons hi r => simp [w16_flipBit14_zero, BitVec.extractLsb'_xor]
  have hver : (w16 (flipBit14 b) 0).extractLsb' 0 3 = (w16 b 0).extractLsb' 0 3 := by
    cases b with
    | nil => rfl
    | cons hi r => simp [w16_flipBit14_zero, BitVec.extractLsb'_xor]
  simp only [decodedFields, hshape, hres0, hver, w16_flipBit14 b (show 0 < 2 by decide),
    w16_flipBit14 b (show 0 < 4 by decide), w16_flipBit14 b (show 0 < 6 by decide), w32_flipBit14 b hkey,
    w32_flipBit14 b hseq]

theorem decodedPayload_flipBit14 (b : List Byte) : decodedPayload (flipBit14 b) = decodedPayload b := by
  rw [decodedPayload, shapeOfWord0_flipBit14, drop_flipBit14 b (by simp [Shape.headerLength]), decodedPayload]

/-- R58: what `DECODE` writes is the same. -/
theorem storeDecoded_flipBit14 (b : List Byte) (s : State) : storeDecoded (flipBit14 b) s = storeDecoded b s := by
  rw [storeDecoded, decodedFields_flipBit14, decodedPayload_flipBit14, storeDecoded]

/-- A flip of one written octet of a buffer is a flip of the image that starts there. -/
theorem memRead_write_flip {m : Memory} {a : Nat} {b : Byte} (h : m.read a = some b) (n : Nat) :
    memRead (m.write a (b ^^^ 0x40)) a n = (memRead m a n).map flipBit14 := by
  cases n with
  | zero => rfl
  | succ n =>
    have hrest : memRead (m.write a (b ^^^ 0x40)) (a + 1) n = memRead m (a + 1) n :=
      memRead_congr fun j _ => m.read_write_other _ (by omega)
    simp only [memRead, Memory.read_write_same, h, hrest]
    cases memRead m (a + 1) n <;> rfl

/-- R58: `DECODE` ends in the same way with bit 14 of word 0 flipped, the flipped octet kept. -/
theorem execDecode_setWire_flip {s : State} {skip : Nat} {b : Byte} (hb : s.wire.read skip = some b) :
    execDecode skip (s.setWire (s.wire.write skip (b ^^^ 0x40))) =
      mapNext (·.setWire (s.wire.write skip (b ^^^ 0x40))) (execDecode skip s) := by
  have hread := memRead_write_flip hb
  obtain ⟨hm, he⟩ | ⟨hm, hw, he⟩ | ⟨first, hm, hw, ⟨hh, he⟩ | ⟨hh, hi, he⟩ | ⟨img, hh, hi, he⟩⟩ :=
      execDecode_cases skip s <;> rw [he]
  · exact execDecode_of_short hm
  · exact execDecode_of_word0_unwritten hm ((hread 2).trans (by rw [hw, Option.map_none]))
  all_goals
    have hw' := (hread 2).trans (congrArg _ hw)
    rw [← shapeOfWord0_flipBit14] at hh
  · rw [← shapeOfWord0_flipBit14]
    exact execDecode_of_truncated hm hw' hh
  · exact execDecode_of_unwritten hm hw' hh ((hread _).trans (congrArg _ hi))
  · rw [← storeDecoded_flipBit14]
    exact execDecode_of_read (s := s.setWire (s.wire.write skip (b ^^^ 0x40))) hm hw' hh
      ((hread _).trans (congrArg _ hi))

/-- Settles O28: word 0 of a legal header has bit 14 clear, and `execDecode_setWire_flip`. -/
theorem bit14IsIgnored : Obligations.Bit14IsIgnored :=
  ⟨fun _ => word0_getLsbD_14, fun _ _ _ hb => next_and_fault_of_mapNext (execDecode_setWire_flip hb)⟩

end Sys2Proof.Machine
end

section
/-! The layout of an encoded image in `WIRE`: O17. -/

namespace Sys2Proof.Machine

/-! ### Octets of a read part -/

/-- The octet of a register that starts at bit `k`, from any number with its low 8 bits. -/
theorem octet_eq_ofNat {n : Nat} {v : BitVec n} {k x : Nat} (h : v.toNat / 2 ^ k % 0x100 = x % 0x100) :
    v.extractLsb' k 8 = BitVec.ofNat 8 x :=
  BitVec.eq_of_toNat_eq (by rw [octet_toNat, h, BitVec.toNat_ofNat])

/-- R37: the octets of a 16-bit part, as numbers. -/
theorem read_of_memRead_be16 {m : Memory} {a : Nat} {v : Half} (h : memRead m a 2 = some (be16 v)) :
    m.read a = some (BitVec.ofNat 8 (v.toNat / 0x100)) ∧ m.read (a + 1) = some (BitVec.ofNat 8 (v.toNat % 0x100)) := by
  obtain ⟨-, hr⟩ := memRead_eq_some h
  refine ⟨(hr 0 (by decide)).trans (congrArg some ?_), (hr 1 (by decide)).trans (congrArg some ?_)⟩ <;>
    exact octet_eq_ofNat (by omega)

/-- R37: the octets of a 32-bit part, as numbers. -/
theorem read_of_memRead_be32 {m : Memory} {a : Nat} {v : Word} (h : memRead m a 4 = some (be32 v)) :
    m.read a = some (BitVec.ofNat 8 (v.toNat / 0x1000000)) ∧
      m.read (a + 1) = some (BitVec.ofNat 8 (v.toNat / 0x10000 % 0x100)) ∧
      m.read (a + 2) = some (BitVec.ofNat 8 (v.toNat / 0x100 % 0x100)) ∧
      m.read (a + 3) = some (BitVec.ofNat 8 (v.toNat % 0x100)) := by
  obtain ⟨-, hr⟩ := memRead_eq_some h
  refine ⟨(hr 0 (by decide)).trans (congrArg some ?_), (hr 1 (by decide)).trans (congrArg some ?_),
    (hr 2 (by decide)).trans (congrArg some ?_), (hr 3 (by decide)).trans (congrArg some ?_)⟩ <;>
    exact octet_eq_ofNat (by omega)

/-! ### The layout -/

/-- R59: where the parts of the image of a header `f` and a payload `p` stand in a buffer. -/
structure WireLayout (m : Memory) (f : Fields) (p : List Byte) : Prop where
  word0 : memRead m 0 2 = some (be16 (word0 f))
  proto : memRead m 2 2 = some (be16 (lowHalf f.proto))
  checksum : f.cp = 1#32 → memRead m 4 2 = some (be16 (checksum f p))
  res1 : f.cp = 1#32 → memRead m 6 2 = some (be16 (lowHalf f.res1))
  key : f.kp = 1#32 → memRead m (shapeOfFields f).keyOffset 4 = some (be32 f.key)
  seq : f.sp = 1#32 → memRead m (shapeOfFields f).seqOffset 4 = some (be32 f.seq)
  payload : memRead m (shapeOfFields f).headerLength p.length = some p

/-- A part of a stored sequence reads back at its place. -/
theorem memRead_memWrite_part {m : Memory} {q part r img : List Byte} {a n : Nat} (himg : img = q ++ (part ++ r))
    (ha : q.length = a) (hn : part.length = n) : memRead (memWrite m 0 img) a n = some part := by
  subst himg ha hn
  refine memRead_of_read fun j hj => ?_
  rw [read_memWrite, if_pos (by simp only [List.length_append]; omega), Nat.sub_zero,
    List.getElem?_append_right (by omega), Nat.add_sub_cancel_left, List.getElem?_append_left hj]

/-- R59, R73: a stored image is laid out so. -/
theorem wireLayout_memWrite (m : Memory) (f : Fields) (p : List Byte) :
    WireLayout (memWrite m 0 (wireImage f p)) f p where
  word0 := memRead_memWrite_part (q := []) (by simp only [wireImage, List.append_assoc]; rfl) rfl rfl
  proto := memRead_memWrite_part (q := be16 (word0 f)) (by simp only [wireImage, List.append_assoc]; rfl) rfl rfl
  checksum hc :=
    memRead_memWrite_part (q := be16 (word0 f) ++ be16 (lowHalf f.proto))
      (by simp only [wireImage, checksumPart, hc, if_true, List.append_assoc]; rfl) rfl rfl
  res1 hc :=
    memRead_memWrite_part (q := be16 (word0 f) ++ be16 (lowHalf f.proto) ++ be16 (checksum f p))
      (by simp only [wireImage, checksumPart, hc, if_true, List.append_assoc]; rfl) rfl rfl
  key hk :=
    memRead_memWrite_part (q := be16 (word0 f) ++ be16 (lowHalf f.proto) ++ checksumPart f p)
      (by simp only [wireImage, optionalPart, hk, decide_true, if_true, List.append_assoc]; rfl)
      (by simp only [List.length_append, be16_length, checksumPart_length, Shape.keyOffset]) rfl
  seq hs :=
    memRead_memWrite_part
      (q := be16 (word0 f) ++ be16 (lowHalf f.proto) ++ checksumPart f p ++ optionalPart (f.kp = 1#32) f.key)
      (by simp only [wireImage, optionalPart, hs, decide_true, if_true, List.append_assoc]; rfl)
      (by simp only [List.length_append, be16_length, checksumPart_length, optionalPart_length, Shape.seqOffset,
        shapeOfFields]) rfl
  payload :=
    memRead_memWrite_part (r := [])
      (q := be16 (word0 f) ++ be16 (lowHalf f.proto) ++ checksumPart f p ++ optionalPart (f.kp = 1#32) f.key ++
        optionalPart (f.sp = 1#32) f.seq)
      (by simp only [wireImage, List.append_nil])
      (by simp only [List.length_append, be16_length, checksumPart_length, optionalPart_length, Shape.headerLength,
        shapeOfFields]) rfl

/-! ### Where the parts stand, as numbers -/

section
variable {f : Fields} (h : encodeFieldsLegal f)
include h

theorem keyOffset_eq : (shapeOfFields f).keyOffset = 4 + 4 * f.cp.toNat := by
  obtain ⟨hc, -⟩ := h
  simp only [Shape.keyOffset, shapeOfFields, partLength_flag hc]

theorem seqOffset_eq : (shapeOfFields f).seqOffset = 4 + 4 * f.cp.toNat + 4 * f.kp.toNat := by
  obtain ⟨hc, hk, -⟩ := h
  simp only [Shape.seqOffset, shapeOfFields, partLength_flag hc, partLength_flag hk]

theorem headerLength_eq :
    (shapeOfFields f).headerLength = 4 + 4 * f.cp.toNat + 4 * f.kp.toNat + 4 * f.sp.toNat := by
  obtain ⟨hc, hk, hs, -⟩ := h
  simp only [Shape.headerLength, shapeOfFields, partLength_flag hc, partLength_flag hk, partLength_flag hs]

/-- R56: the first octet of word 0. -/
theorem word0_toNat_div :
    (word0 f).toNat / 0x100 = f.cp.toNat * 0x80 + f.kp.toNat * 0x20 + f.sp.toNat * 0x10 + f.res0.toNat / 0x20 := by
  rw [word0_toNat h]
  obtain ⟨-, -, -, -, hv, -⟩ := h
  omega

/-- R56: the second octet of word 0. -/
theorem word0_toNat_mod : (word0 f).toNat % 0x100 = f.res0.toNat % 0x20 * 8 + f.ver.toNat := by
  rw [word0_toNat h]
  obtain ⟨-, -, -, -, hv, -⟩ := h
  omega

end

/-- R70, R73: an `ENCODE` that ends with `OK` has read the payload and stored the image of a legal header. -/
theorem execEncode_ok {s t : State} (ht : execEncode s = .next t) (hok : t.status = 0#32) :
    encodeFieldsLegal s.f ∧ ∃ p, memRead s.pay 0 s.payLen.toNat = some p ∧ encodeLength s ≤ s.cfg.bufMax ∧
      t.wire = memWrite s.wire 0 (wireImage s.f p) ∧ t.wireLen = BitVec.ofNat 32 (encodeLength s) := by
  obtain ⟨i, -, he⟩ | ⟨-, -, he⟩ | ⟨-, -, -, he⟩ | ⟨p, hf, hl, hp, he⟩ := execEncode_cases s <;> rw [he] at ht <;>
    cases ht
  · cases eq_ok_of_statusWord hok
  · cases eq_ok_of_statusWord hok
  · exact ⟨(encodeChecked_pass s.f).1 hf, p, hp, hl, rfl, rfl⟩

/-- Settles O17: the layout of the stored image, its parts as numbers. -/
theorem encodeLaysTheFieldsOutInOrder : Obligations.EncodeLaysTheFieldsOutInOrder := by
  intro s t hcfg ht hok
  obtain ⟨hf, p, hp, hl, hwire, hlen⟩ := execEncode_ok ht hok
  have layout := wireLayout_memWrite s.wire s.f p
  rw [← hwire] at layout
  obtain ⟨hplen, hpay⟩ := memRead_eq_some hp
  obtain ⟨-, hcopy⟩ := memRead_eq_some layout.payload
  obtain ⟨hoct0, hoct1⟩ := read_of_memRead_be16 layout.word0
  obtain ⟨hoct2, hoct3⟩ := read_of_memRead_be16 layout.proto
  have hkey := keyOffset_eq hf ▸ fun hk => read_of_memRead_be32 (layout.key hk)
  have hseq := seqOffset_eq hf ▸ fun hs => read_of_memRead_be32 (layout.seq hs)
  have hhead := headerLength_eq hf
  have htotal := encodeLength_eq hf
  rw [word0_toNat_div hf] at hoct0
  rw [word0_toNat_mod hf] at hoct1
  obtain ⟨-, -, -, -, -, hproto, hres1⟩ := hf
  rw [lowHalf_toNat (by omega)] at hoct2 hoct3
  refine ⟨hoct0, hoct1, hoct2, hoct3, fun hc => ⟨⟨p, hp, read_of_memRead_be16 (layout.checksum hc)⟩, ?_⟩, hkey, hseq,
    fun j hj => ⟨?_, ?_⟩, ?_⟩
  · have hres := read_of_memRead_be16 (layout.res1 hc)
    rwa [lowHalf_toNat (by have := hres1 hc; omega)] at hres
  · rw [← Nat.zero_add j, hpay j hj]
    simp [hplen, hj]
  · rw [← hhead, hcopy j (by omega), ← hpay j hj, Nat.zero_add]
  · rw [hlen, BitVec.toNat_ofNat, Nat.mod_eq_of_lt (by obtain ⟨-, hmax⟩ := hcfg; omega), htotal]

end Sys2Proof.Machine
end

section
/-! The expansions of the pseudo-instructions: O57. -/

namespace Sys2Proof.Machine

/-- R54: octets at consecutive indices, as a list with its indices. -/
theorem lineOctets_eq_map (b : Buf) (a : Nat) (p : List Byte) :
    lineOctets b a p = (p.zipIdx a).map fun x => HostAction.writeOctet b x.2 x.1 := by
  induction p generalizing a with
  | nil => rfl
  | cons v r ih => simp only [lineOctets, ih, List.zipIdx_cons, List.map_cons]

/-- Settles O57: the octets of `LOADPAY` and `LOADWIRE` by `lineOctets_eq_map`; the other lines have fixed actions. -/
theorem pseudoInstructionsExpand : Obligations.PseudoInstructionsExpand := by
  refine ⟨by decide, fun p => ⟨?_, ?_⟩, fun f => rfl, rfl, by decide, by decide⟩
  · rw [Line.actions, lineOctets_eq_map]
    rfl
  · rw [Line.actions, lineOctets_eq_map]
    rfl

end Sys2Proof.Machine
end

section
/-! The endings of `ENCODE` as numbers, and its frame: O16, O19, O20 and O21. -/

namespace Sys2Proof.Machine

/-! ### The first field that fails -/

/-- R103: the register named is the one that fails behind others that pass. -/
theorem firstInvalid_append_cons {is js : List FieldIndex} {f : Fields} {i : FieldIndex}
    (hpass : ∀ j ∈ is, (f.get j).toNat ≤ fieldMax j) (hfail : fieldMax i < (f.get i).toNat) :
    firstInvalid (is ++ i :: js) f = some i := by
  have his : firstInvalid is f = none := firstInvalid_eq_none.2 hpass
  rw [firstInvalid] at his ⊢
  rw [List.find?_append, his, Option.none_or, List.find?_cons_of_pos (by simpa [fieldValid] using hfail)]

section
variable {s : State}

/-- R71, R102: `ENCODE` ends with `InvalidFieldWidth` of the register that fails behind others that pass. -/
theorem execEncode_of_first_invalid {is js : List FieldIndex} {i : FieldIndex}
    (hchecked : encodeChecked s.f = is ++ i :: js) (hpass : ∀ j ∈ is, (s.f.get j).toNat ≤ fieldMax j)
    (hfail : fieldMax i < (s.f.get i).toNat) :
    execEncode s = .next { s with status := BitVec.ofNat 32 (fieldNumber i * 0x10000 + 1) } := by
  have hf : firstInvalid (encodeChecked s.f) s.f = some i := hchecked ▸ firstInvalid_append_cons hpass hfail
  have hi := fieldNumber_le i
  rw [execEncode_of_invalid hf, State.finish, statusWord_eq _ (by omega)]
  rfl

/-- R71, R72: past the field checks, `ENCODE` that goes on ends with `CapacityExceeded(0)` or `OK`, as the image fits or
not. -/
theorem execEncode_status_of_legal {t : State} (hf : encodeFieldsLegal s.f) (ht : execEncode s = .next t) :
    (s.cfg.bufMax < encodeLength s ∧ t.status = statusWord .capacityExceeded 0) ∨
      (encodeLength s ≤ s.cfg.bufMax ∧ t.status = statusWord .ok 0) := by
  have hnone := (encodeChecked_pass s.f).2 hf
  obtain ⟨i, hi, -⟩ | ⟨-, hl, he⟩ | ⟨-, -, -, he⟩ | ⟨p, -, hl, -, he⟩ := execEncode_cases s
  · rw [hnone] at hi
    cases hi
  all_goals
    rw [he] at ht
    cases ht
  · exact .inl ⟨hl, rfl⟩
  · exact .inr ⟨hl, rfl⟩

end

/-- Settles O19: `execEncode_of_first_invalid` at each register checked, and the endings past the checks. -/
theorem encodeReportsTheLowestInvalidField : Obligations.EncodeReportsTheLowestInvalidField := by
  refine fun s => ⟨fun h => ?_, fun hc h => ?_, fun hc hk h => ?_, fun hc hk hs h => ?_, fun hc hk hs hr h => ?_,
    fun hc hk hs hr hv h => ?_, fun hc hk hs hr hv hp h => ?_, fun hc hk hs hr hv hp hr1 t ht => ?_⟩
  · exact execEncode_of_first_invalid (i := .cp) (is := []) rfl (by simp) h
  · exact execEncode_of_first_invalid (i := .kp) (is := [.cp]) rfl (by simp [Fields.get, fieldMax, hc]) h
  · exact execEncode_of_first_invalid (i := .sp) (is := [.cp, .kp]) rfl (by simp [Fields.get, fieldMax, hc, hk]) h
  · exact execEncode_of_first_invalid (i := .res0) (is := [.cp, .kp, .sp]) rfl
      (by simp [Fields.get, fieldMax, hc, hk, hs]) h
  · exact execEncode_of_first_invalid (i := .ver) (is := [.cp, .kp, .sp, .res0]) rfl
      (by simp [Fields.get, fieldMax, hc, hk, hs, hr]) h
  · exact execEncode_of_first_invalid (i := .proto) (is := [.cp, .kp, .sp, .res0, .ver]) rfl
      (by simp [Fields.get, fieldMax, hc, hk, hs, hr, hv]) h
  · exact execEncode_of_first_invalid (i := .res1) (is := [.cp, .kp, .sp, .res0, .ver, .proto])
      (by rw [encodeChecked, if_pos hc]) (by simp [Fields.get, fieldMax, hc, hk, hs, hr, hv, hp]) h
  · obtain ⟨-, hst⟩ | ⟨-, hst⟩ := execEncode_status_of_legal ⟨hc, hk, hs, hr, hv, hp, hr1⟩ ht <;>
      rw [hst, statusCode_statusWord] <;> decide

/-- Settles O20: an image over `BUF_MAX` is found before the payload is read, and a header has at most 16 octets. -/
theorem encodeReportsExceededCapacity : Obligations.EncodeReportsExceededCapacity := by
  refine fun s hf => ⟨fun hl => ?_, fun hroom t ht => ?_⟩
  · rw [← encodeLength_eq hf] at hl
    exact execEncode_of_overflow ((encodeChecked_pass s.f).2 hf) hl
  · have hfits : encodeLength s ≤ s.cfg.bufMax := by
      have := headerLength_cases (shapeOfFields s.f)
      rw [encodeLength]
      omega
    obtain ⟨hl, -⟩ | ⟨-, hst⟩ := execEncode_status_of_legal hf ht
    · omega
    · rw [hst, statusCode_statusWord]
      decide

/-! ### The next state -/

/-- R56: word 0 of a legal header, from its sum. -/
theorem word0_eq {f : Fields} (h : encodeFieldsLegal f) :
    word0 f = BitVec.ofNat 16
      (f.cp.toNat * 0x8000 + f.kp.toNat * 0x2000 + f.sp.toNat * 0x1000 + f.res0.toNat * 8 + f.ver.toNat) := by
  rw [← word0_toNat h, BitVec.ofNat_toNat, BitVec.setWidth_eq]

/-- Settles O16: the ending of `ENCODE` that stores the image, with word 0 and the lengths as numbers. -/
theorem encodeCompletesWithTheImage : Obligations.EncodeCompletesWithTheImage := by
  intro s p hf hl hp
  rw [← encodeLength_eq hf] at hl
  rw [← encodeLength_eq hf, ← word0_eq hf, ← lowHalf_eq, ← lowHalf_eq]
  refine (execEncode_of_read ((encodeChecked_pass s.f).2 hf) hl hp).trans ?_
  simp only [wireImage, checksumPart, optionalPart, decide_eq_true_eq, State.finish, statusWord_ok]
  rfl

/-! ### The frame -/

/-- R43, R74, R102: all that `ENCODE` writes is `WIRE` below the image's length, `WIRE_LEN` and `STATUS`; only `STATUS`
when it ends with an error. -/
theorem execEncode_writes {s t : State} (ht : execEncode s = .next t) :
    ∃ (m : Memory) (len w : Word), t = ((s.setWire m).setWireLen len).setStatus w ∧
      (∀ a, encodeLength s ≤ a → m.read a = s.wire.read a) ∧ (w ≠ 0#32 → m = s.wire ∧ len = s.wireLen) := by
  obtain ⟨i, -, he⟩ | ⟨-, -, he⟩ | ⟨-, -, -, he⟩ | ⟨p, -, -, hp, he⟩ := execEncode_cases s <;> rw [he] at ht <;>
    cases ht
  · exact ⟨s.wire, s.wireLen, _, rfl, fun _ _ => rfl, fun _ => ⟨rfl, rfl⟩⟩
  · exact ⟨s.wire, s.wireLen, _, rfl, fun _ _ => rfl, fun _ => ⟨rfl, rfl⟩⟩
  · have himage : (wireImage s.f p).length = encodeLength s := by
      rw [wireImage_length, (memRead_eq_some hp).1, encodeLength]
    refine ⟨_, _, _, rfl, fun a ha => ?_, fun hw => absurd statusWord_ok hw⟩
    rw [read_memWrite, if_neg (by omega)]

/-- Settles O21: what `ENCODE` writes, field by field. -/
theorem encodeLeavesTheRestUnchanged : Obligations.EncodeLeavesTheRestUnchanged := by
  intro s t ht
  obtain ⟨m, len, w, rfl, hout, herr⟩ := execEncode_writes ht
  refine ⟨rfl, rfl, rfl, rfl, rfl, fun _ => rfl, rfl, rfl, rfl, rfl, hout, fun hw => ?_⟩
  obtain ⟨rfl, rfl⟩ := herr hw
  exact ⟨rfl, fun _ => rfl⟩

end Sys2Proof.Machine
end

section
/-! `DECODE` of an encoded image: O40. -/

namespace Sys2Proof.Machine

/-! ### Words of an image that has been read -/

/-- A part of a range that reads stands in the octets of the whole. -/
theorem getElem?_of_memRead_part {m : Memory} {b part : List Byte} {a n k : Nat} (hb : memRead m 0 n = some b)
    (hpart : memRead m a k = some part) (hle : a + k ≤ n) {j : Nat} (hj : j < k) : b[a + j]? = part[j]? := by
  rw [← (memRead_eq_some hpart).2 j hj, ← (memRead_eq_some hb).2 (a + j) (by omega), Nat.zero_add]

section
variable {m : Memory} {b : List Byte} {a n : Nat} (hb : memRead m 0 n = some b)
include hb

/-- R37: `W16` at a 16-bit part. -/
theorem w16_of_memRead_be16 {v : Half} (hv : memRead m a 2 = some (be16 v)) (hle : a + 2 ≤ n) : w16 b a = v := by
  have hoct {j : Nat} := getElem?_of_memRead_part hb hv hle (j := j)
  exact (w16_of_getElem? (hoct (by omega : 0 < 2)) (hoct (by omega : 1 < 2))).trans (octetPair_be16 v)

/-- R80: the 32-bit view at a 32-bit part. -/
theorem w32_of_memRead_be32 {v : Word} (hv : memRead m a 4 = some (be32 v)) (hle : a + 4 ≤ n) : w32 b a = v := by
  have hoct {j : Nat} := getElem?_of_memRead_part hb hv hle (j := j)
  have hhigh := w16_of_getElem? (hoct (by omega : 0 < 4)) (hoct (by omega : 1 < 4))
  have hlow := w16_of_getElem? (hoct (by omega : 2 < 4)) (hoct (by omega : 3 < 4))
  apply BitVec.eq_of_toNat_eq
  rw [w32, hlow, ← Nat.add_zero a, hhigh, halfPair_toNat, octetPair_toNat, octetPair_toNat]
  have := v.isLt
  simp only [octet_toNat]
  omega

end

/-! ### The header of an encoded image -/

section
variable (f : Fields)

@[simp] theorem shapeOfFields_c : (shapeOfFields f).c = decide (f.cp = 1#32) := rfl

@[simp] theorem shapeOfFields_k : (shapeOfFields f).k = decide (f.kp = 1#32) := rfl

@[simp] theorem shapeOfFields_s : (shapeOfFields f).s = decide (f.sp = 1#32) := rfl

end

/-- R56, R57: word 0 of a legal header has the header's shape. -/
theorem shapeOfWord0_word0 {f : Fields} (h : encodeFieldsLegal f) : shapeOfWord0 (word0 f) = shapeOfFields f := by
  obtain ⟨-, hc, -, hk, hs, -⟩ := word0PlacesTheFlagsAndFields f h
  simp only [shapeOfWord0, shapeOfFields, hc, hk, hs]

/-- R20: a legal flag is the register that `DECODE` gives for its part. -/
theorem ite_flag_eq {v : Word} (h : v.toNat ≤ 1) : (if v = 1#32 then 1 else 0) = v := by
  by_cases hv : v = 1#32
  · simp [hv]
  · rw [eq_one_iff_toNat] at hv
    have hzero : v = 0 := BitVec.eq_of_toNat_eq (show v.toNat = 0 by omega)
    simp [hzero]

/-- A 16-bit field in a 32-bit register, down to the wire and back. -/
theorem zext32_lowHalf {v : Word} (h : v.toNat ≤ 0xFFFF) : zext32 (lowHalf v) = v := by
  rw [zext32_eq, lowHalf_toNat (by omega), BitVec.ofNat_toNat, BitVec.setWidth_eq]

/-- R42: a stored image reads back. -/
theorem memRead_memWrite_wireImage (m : Memory) (f : Fields) (p : List Byte) :
    memRead (memWrite m 0 (wireImage f p)) 0 (wireImage f p).length = some (wireImage f p) :=
  (memWriteThenMemReadGivesTheOctets m 0 (wireImage f p)).1

section
variable {f : Fields} (h : encodeFieldsLegal f) (p : List Byte)
include h

/-- R60, R61: the length of the image of a legal header, as a number. -/
theorem wireImage_length_eq :
    (wireImage f p).length = 4 + 4 * f.cp.toNat + 4 * f.kp.toNat + 4 * f.sp.toNat + p.length := by
  rw [wireImage_length, headerLength_eq h]

/-- R56: word 0 of an encoded image. -/
theorem w16_wireImage_zero : w16 (wireImage f p) 0 = word0 f :=
  w16_of_memRead_be16 (memRead_memWrite_wireImage [] f p) (wireLayout_memWrite [] f p).word0
    (by rw [wireImage_length_eq h]; omega)

/-- R57: the shape `DECODE` takes from an encoded image is that of the header encoded. -/
theorem shapeOfWord0_wireImage : shapeOfWord0 (w16 (wireImage f p) 0) = shapeOfFields f := by
  rw [w16_wireImage_zero h, shapeOfWord0_word0 h]

theorem w16_wireImage_proto : w16 (wireImage f p) 2 = lowHalf f.proto :=
  w16_of_memRead_be16 (memRead_memWrite_wireImage [] f p) (wireLayout_memWrite [] f p).proto
    (by rw [wireImage_length_eq h]; omega)

theorem w16_wireImage_checksum (hc : f.cp = 1#32) : w16 (wireImage f p) 4 = checksum f p :=
  w16_of_memRead_be16 (memRead_memWrite_wireImage [] f p) ((wireLayout_memWrite [] f p).checksum hc)
    (by have := eq_one_iff_toNat.1 hc; rw [wireImage_length_eq h]; omega)

theorem w16_wireImage_res1 (hc : f.cp = 1#32) : w16 (wireImage f p) 6 = lowHalf f.res1 :=
  w16_of_memRead_be16 (memRead_memWrite_wireImage [] f p) ((wireLayout_memWrite [] f p).res1 hc)
    (by have := eq_one_iff_toNat.1 hc; rw [wireImage_length_eq h]; omega)

theorem w32_wireImage_key (hk : f.kp = 1#32) : w32 (wireImage f p) (shapeOfFields f).keyOffset = f.key :=
  w32_of_memRead_be32 (memRead_memWrite_wireImage [] f p) ((wireLayout_memWrite [] f p).key hk)
    (by have := eq_one_iff_toNat.1 hk; rw [wireImage_length_eq h, keyOffset_eq h]; omega)

theorem w32_wireImage_seq (hs : f.sp = 1#32) : w32 (wireImage f p) (shapeOfFields f).seqOffset = f.seq :=
  w32_of_memRead_be32 (memRead_memWrite_wireImage [] f p) ((wireLayout_memWrite [] f p).seq hs)
    (by have := eq_one_iff_toNat.1 hs; rw [wireImage_length_eq h, seqOffset_eq h]; omega)

/-- R84: the payload `DECODE` takes from an encoded image is the one encoded. -/
theorem decodedPayload_wireImage : decodedPayload (wireImage f p) = p := by
  rw [decodedPayload, shapeOfWord0_wireImage h, wireImage]
  exact List.drop_left' (by
    simp only [List.length_append, be16_length, checksumPart_length, optionalPart_length, Shape.headerLength,
      shapeOfFields])

/-- R76: the field registers `DECODE` takes from an encoded image are those encoded, with the computed checksum. -/
theorem decodedFields_wireImage :
    ({ f with csum := zext32 (checksum f p) } : Fields).EqualModuloAbsence (decodedFields (wireImage f p)) := by
  obtain ⟨-, -, -, -, -, hres0, hver⟩ := word0PlacesTheFlagsAndFields f h
  obtain ⟨hcp, hkp, hsp, -, -, hproto, hres1⟩ := id h
  simp only [Fields.EqualModuloAbsence, decodedFields, w16_wireImage_zero h p, shapeOfWord0_word0 h,
    w16_wireImage_proto h p, shapeOfFields_c, shapeOfFields_k, shapeOfFields_s, decide_eq_true_eq]
  refine ⟨(ite_flag_eq hcp).symm, (ite_flag_eq hkp).symm, (ite_flag_eq hsp).symm, ?_, ?_,
    (zext32_lowHalf hproto).symm, fun hc => ⟨?_, ?_⟩, fun hk => ?_, fun hs => ?_⟩
  · exact BitVec.eq_of_toNat_eq (by rw [BitVec.toNat_setWidth, hres0]; omega)
  · exact BitVec.eq_of_toNat_eq (by rw [BitVec.toNat_setWidth, hver]; omega)
  · rw [if_pos hc, w16_wireImage_checksum h p hc]
  · rw [if_pos hc, w16_wireImage_res1 h p hc, zext32_lowHalf (hres1 hc)]
  · rw [if_pos hk, w32_wireImage_key h p hk]
  · rw [if_pos hs, w32_wireImage_seq h p hs]

/-- R76: `DECODE 0` of an encoded image stores what the image holds. -/
theorem execDecode_of_wireImage {t : State} {m : Memory} (hwire : t.wire = memWrite m 0 (wireImage f p))
    (hlen : t.wireLen.toNat = (wireImage f p).length) : execDecode 0 t = .next (storeDecoded (wireImage f p) t) := by
  have hremaining : remaining 0 t = (wireImage f p).length := (remaining_eq 0 t).trans hlen
  have hword0 : w16 (be16 (word0 f)) 0 = word0 f := w16_be16 [] [] (word0 f)
  refine execDecode_of_read (first := be16 (word0 f)) ?_ ?_ ?_ ?_
  · rw [hremaining, wireImage_length_eq h]
    omega
  · rw [hwire]
    exact (wireLayout_memWrite m f p).word0
  · rw [hword0, shapeOfWord0_word0 h, hremaining, wireImage_length]
    omega
  · rw [hwire, hremaining]
    exact memRead_memWrite_wireImage m f p

end

/-- R21: without a checksum part, `F_CSUM` does not count. -/
theorem Fields.EqualModuloAbsence.of_csum {f g : Fields} {c : Word}
    (h : ({ f with csum := c } : Fields).EqualModuloAbsence g) (hc : f.cp ≠ 1#32) : f.EqualModuloAbsence g := by
  obtain ⟨hcp, hkp, hsp, hres0, hver, hproto, -, hkey, hseq⟩ := h
  exact ⟨hcp, hkp, hsp, hres0, hver, hproto, fun h1 => absurd h1 hc, hkey, hseq⟩

/-- Settles O40: what `ENCODE` has stored reads back, and its fields and payload are those encoded. -/
theorem encodeThenDecodeGivesTheHeaderBack : Obligations.EncodeThenDecodeGivesTheHeaderBack := by
  intro s t hcfg ht hok
  obtain ⟨hf, p, hp, hl, hwire, hlen⟩ := execEncode_ok ht hok
  obtain ⟨hplen, -⟩ := memRead_eq_some hp
  have htotal : t.wireLen.toNat = (wireImage s.f p).length := by
    rw [hlen, BitVec.toNat_ofNat, Nat.mod_eq_of_lt (by obtain ⟨-, hmax⟩ := hcfg; omega), wireImage_length, hplen,
      encodeLength]
  have hpayload := decodedPayload_wireImage hf p
  have hfields := decodedFields_wireImage hf p
  have hpayLen : (storeDecoded (wireImage s.f p) t).payLen = s.payLen := by
    rw [storeDecoded, hpayload, State.finish_payLen, State.setPayLen_payLen, hplen, BitVec.ofNat_toNat,
      BitVec.setWidth_eq]
  refine ⟨storeDecoded (wireImage s.f p) t, p, execDecode_of_wireImage hf p hwire htotal, statusWord_ok, hp, hpayLen,
    ?_, fun hc => hfields.of_csum (by rw [hc]; decide), fun _ => hfields⟩
  rw [hpayLen, ← hplen, storeDecoded, hpayload]
  exact (memWriteThenMemReadGivesTheOctets t.pay 0 p).1

end Sys2Proof.Machine
end

section
/-! `DECODE`: its next state, its checks, its frame, and the octets it reads: O23, O24, O25, O26 and O27. -/

namespace Sys2Proof.Machine

/-! ### Word 0 as a number -/

/-- A flag bit of a received word, as the number in its place. -/
theorem getLsbD_eq_decide (w : Half) (k : Nat) : w.getLsbD k = decide (w.toNat / 2 ^ k % 2 = 1) := by
  rw [BitVec.getLsbD, Nat.testBit_eq_decide_div_mod_eq]

/-- R83: a flag register holds the flag's bit. -/
theorem flagWord_eq {present : Bool} {n : Nat} (h : present = decide (n = 1)) (hn : n ≤ 1) :
    (if present = true then 1 else 0 : Word) = BitVec.ofNat 32 n := by
  subst h
  obtain rfl | rfl : n = 0 ∨ n = 1 := by omega
  · rfl
  · rfl

section
variable (w : Half)

/-- R57: the checksum flag is the top bit. -/
theorem shapeOfWord0_c : (shapeOfWord0 w).c = decide (w.toNat / 0x8000 = 1) := by
  have hmod : w.toNat / 2 ^ 15 % 2 = w.toNat / 0x8000 := Nat.mod_eq_of_lt (by have := w.isLt; omega)
  exact (getLsbD_eq_decide w 15).trans (by rw [hmod])

theorem shapeOfWord0_k : (shapeOfWord0 w).k = decide (w.toNat / 0x2000 % 2 = 1) := getLsbD_eq_decide w 13

theorem shapeOfWord0_s : (shapeOfWord0 w).s = decide (w.toNat / 0x1000 % 2 = 1) := getLsbD_eq_decide w 12

theorem flagWord_c :
    (if (shapeOfWord0 w).c = true then 1 else 0 : Word) = BitVec.ofNat 32 (w.toNat / 0x8000) :=
  flagWord_eq (shapeOfWord0_c w) (by have := w.isLt; omega)

theorem flagWord_k :
    (if (shapeOfWord0 w).k = true then 1 else 0 : Word) = BitVec.ofNat 32 (w.toNat / 0x2000 % 2) :=
  flagWord_eq (shapeOfWord0_k w) (by omega)

theorem flagWord_s :
    (if (shapeOfWord0 w).s = true then 1 else 0 : Word) = BitVec.ofNat 32 (w.toNat / 0x1000 % 2) :=
  flagWord_eq (shapeOfWord0_s w) (by omega)

/-- R60: where the key of a received header stands. -/
theorem keyOffset_shapeOfWord0 : (shapeOfWord0 w).keyOffset = 4 + 4 * (w.toNat / 0x8000) := by
  have := w.isLt
  simp only [Shape.keyOffset, shapeOfWord0, partLength_getLsbD]
  omega

/-- R60: where the sequence number of a received header stands. -/
theorem seqOffset_shapeOfWord0 :
    (shapeOfWord0 w).seqOffset = 4 + 4 * (w.toNat / 0x8000) + 4 * (w.toNat / 0x2000 % 2) := by
  have := w.isLt
  simp only [Shape.seqOffset, shapeOfWord0, partLength_getLsbD]
  omega

/-- R60: how long a received header is. -/
theorem headerLength_shapeOfWord0 :
    (shapeOfWord0 w).headerLength =
      4 + 4 * (w.toNat / 0x8000) + 4 * (w.toNat / 0x2000 % 2) + 4 * (w.toNat / 0x1000 % 2) := by
  have := w.isLt
  simp only [Shape.headerLength, shapeOfWord0, partLength_getLsbD]
  omega

/-- R56: a bit field of word 0 in a register. -/
theorem extractLsb'_setWidth_eq (k n : Nat) :
    (w.extractLsb' k n).setWidth 32 = BitVec.ofNat 32 (w.toNat / 2 ^ k % 2 ^ n) :=
  BitVec.eq_of_toNat_eq (by
    rw [BitVec.toNat_setWidth, BitVec.extractLsb'_toNat, Nat.shiftRight_eq_div_pow, BitVec.toNat_ofNat])

end

/-- R80: the 32-bit view, from its two halves. -/
theorem w32_eq (b : List Byte) (i : Nat) :
    w32 b i = BitVec.ofNat 32 ((w16 b i).toNat * 0x10000 + (w16 b (i + 2)).toNat) := by
  rw [w32, ← halfPair_toNat, BitVec.ofNat_toNat, BitVec.setWidth_eq]

/-! ### The endings that read the image -/

/-- Word 0 as the first read has it is word 0 of the image. -/
theorem w16_zero_of_memRead {m : Memory} {a n : Nat} {first b : List Byte} (hfirst : memRead m a 2 = some first)
    (hb : memRead m a n = some b) (hn : 2 ≤ n) : w16 first 0 = w16 b 0 := by
  rw [memRead_take hb hn] at hfirst
  cases hfirst
  simp [w16]

section
variable {s : State} {skip : Nat}

/-- R80, R82: `DECODE` of a written image that is as long as its flags say. -/
theorem execDecode_of_image {b : List Byte} (hb : memRead s.wire skip (remaining skip s) = some b)
    (hh : (shapeOfWord0 (w16 b 0)).headerLength ≤ b.length) : execDecode skip s = .next (storeDecoded b s) := by
  have hlen := (memRead_eq_some hb).1
  have hfour : 4 ≤ (shapeOfWord0 (w16 b 0)).headerLength := by
    rw [headerLength_shapeOfWord0]
    omega
  have hfirst := memRead_take hb (k := 2) (by omega)
  refine execDecode_of_read (by omega) hfirst ?_ hb
  rw [w16_zero_of_memRead hfirst hb (by omega)]
  omega

/-- R80, R82: a `DECODE` that ends with `OK` has read an image as long as its flags say, and stored what it holds. -/
theorem execDecode_ok {t : State} (ht : execDecode skip s = .next t) (hok : t.status = 0#32) :
    ∃ b, memRead s.wire skip (remaining skip s) = some b ∧ (shapeOfWord0 (w16 b 0)).headerLength ≤ b.length ∧
      t = storeDecoded b s := by
  obtain ⟨-, he⟩ | ⟨-, -, he⟩ | ⟨first, hm, hw, ⟨-, he⟩ | ⟨-, -, he⟩ | ⟨b, hh, hb, he⟩⟩ := execDecode_cases skip s <;>
    rw [he] at ht <;> cases ht
  · cases eq_ok_of_statusWord hok
  · cases eq_ok_of_statusWord hok
  · rw [w16_zero_of_memRead hw hb (by omega)] at hh
    exact ⟨b, hb, hh.trans_eq (memRead_eq_some hb).1.symm, rfl⟩

/-- R82: with fewer than 4 octets behind `SKIP`, `DECODE` ends with `TruncatedHeader(4)`. -/
theorem execDecode_of_under_four (h : s.wireLen.toNat < skip + 4) :
    execDecode skip s = .next { s with status := 0x00040002 } := by
  have hstatus : statusWord .truncatedHeader 4 = 0x00040002 := by decide
  rw [execDecode_of_short (by rw [remaining_eq]; omega), State.finish, hstatus]
  rfl

end

/-- Settles O23: `execDecode_of_image`, with the fields and lengths as numbers. -/
theorem decodeCompletesWithTheHeader : Obligations.DecodeCompletesWithTheHeader := by
  intro s skip b hb _ w c k q h hh
  rw [← remaining_eq] at hb
  have hhead : (shapeOfWord0 (w16 b 0)).headerLength = h := headerLength_shapeOfWord0 (w16 b 0)
  refine (execDecode_of_image hb (by rwa [hhead])).trans ?_
  simp only [storeDecoded, decodedPayload, List.length_drop, hhead, State.finish, statusWord_ok, decodedFields,
    flagWord_c, flagWord_k, flagWord_s, keyOffset_shapeOfWord0, seqOffset_shapeOfWord0, zext32_eq, w32_eq,
    extractLsb'_setWidth_eq]
  simp only [shapeOfWord0_c, shapeOfWord0_k, shapeOfWord0_s, decide_eq_true_eq, Nat.reducePow, Nat.div_one]
  rfl

/-- Settles O24: the two endings of `DECODE` for a header that is cut off, with their status words as numbers. -/
theorem decodeReportsTruncatedHeaders : Obligations.DecodeReportsTruncatedHeaders := by
  refine fun s skip => ⟨execDecode_of_under_four, ?_⟩
  intro hi lo hm hhi hlo h hh
  have hrem := remaining_eq skip s
  have hhead : (shapeOfWord0 (w16 [hi, lo] 0)).headerLength = h := headerLength_octetPair hi lo
  have hmax := headerLength_cases (shapeOfWord0 (w16 [hi, lo] 0))
  refine (execDecode_of_truncated (by omega) (memRead_word0 hhi hlo) (by omega)).trans ?_
  rw [hhead, State.finish, statusWord_eq _ (by omega)]
  rfl

/-! ### The frame -/

/-- R84: the payload of an image in `WIRE[SKIP..WIRE_LEN)` has a length that fits a register. -/
theorem decodedPayload_length_lt {s : State} {skip : Nat} {b : List Byte}
    (hb : memRead s.wire skip (remaining skip s) = some b) : (decodedPayload b).length < 2 ^ 32 := by
  have hlen := (memRead_eq_some hb).1
  have hrem := remaining_eq skip s
  have := s.wireLen.isLt
  rw [decodedPayload, List.length_drop]
  omega

/-- R43, R84, R102: all that `DECODE` writes is the field registers, `PAY` below the payload's length, `PAY_LEN` and
`STATUS`; only `STATUS` when it ends with an error. -/
theorem execDecode_writes {s t : State} {skip : Nat} (ht : execDecode skip s = .next t) :
    ∃ (f : Fields) (m : Memory) (len w : Word), t = (((s.setFields f).setPay m).setPayLen len).setStatus w ∧
      (w = 0#32 → ∃ b, memRead s.wire skip (remaining skip s) = some b ∧ len.toNat = (decodedPayload b).length ∧
        ∀ a, (decodedPayload b).length ≤ a → m.read a = s.pay.read a) ∧
      (w ≠ 0#32 → f = s.f ∧ m = s.pay ∧ len = s.payLen) := by
  by_cases hok : t.status = 0#32
  · obtain ⟨b, hb, -, rfl⟩ := execDecode_ok ht hok
    refine ⟨_, _, _, _, rfl, fun _ => ⟨b, hb, ?_, fun a ha => ?_⟩, fun hw => absurd statusWord_ok hw⟩
    · rw [BitVec.toNat_ofNat, Nat.mod_eq_of_lt (decodedPayload_length_lt hb)]
    · rw [read_memWrite, if_neg (by omega)]
  · refine ⟨s.f, s.pay, s.payLen, t.status, ?_, fun hw => absurd hw hok, fun _ => ⟨rfl, rfl, rfl⟩⟩
    obtain ⟨-, he⟩ | ⟨-, -, he⟩ | ⟨first, -, -, ⟨-, he⟩ | ⟨-, -, he⟩ | ⟨b, -, -, he⟩⟩ := execDecode_cases skip s <;>
      rw [he] at ht <;> cases ht
    · rfl
    · rfl
    · exact absurd statusWord_ok hok

/-- `DECODE` leaves `WIRE_LEN` as it is (R84). -/
theorem execDecode_wireLen {s t : State} {skip : Nat} (ht : execDecode skip s = .next t) : t.wireLen = s.wireLen := by
  obtain ⟨f, m, len, w, rfl, -⟩ := execDecode_writes ht
  rfl

/-- Settles O26: what `DECODE` writes, field by field. -/
theorem decodeLeavesTheRestUnchanged : Obligations.DecodeLeavesTheRestUnchanged := by
  intro s t skip ht
  obtain ⟨f, m, len, w, rfl, hok, herr⟩ := execDecode_writes ht
  refine ⟨rfl, rfl, rfl, rfl, fun _ => rfl, rfl, rfl, rfl, rfl, hok, fun hw => ?_⟩
  obtain ⟨rfl, rfl, rfl⟩ := herr hw
  exact ⟨rfl, rfl, fun _ => rfl⟩

/-! ### The octets read -/

/-- `MemRead` looks only at the octets of its range, wherever they stand. -/
theorem memRead_congr_shift {m m' : Memory} {a a' n : Nat} (h : ∀ j < n, m'.read (a' + j) = m.read (a + j)) :
    memRead m' a' n = memRead m a n := by
  induction n generalizing a a' with
  | zero => rfl
  | succ n ih =>
    have hfirst : m'.read a' = m.read a := h 0 (by omega)
    have hrest : memRead m' (a' + 1) n = memRead m (a + 1) n :=
      ih fun j hj => by simpa only [Nat.add_assoc, Nat.add_comm 1] using h (j + 1) (by omega)
    simp only [memRead, hfirst, hrest]

/-- R81: `DECODE` ends in the same way where as many octets remain and they are the same, that `WIRE` and `WIRE_LEN`
kept. -/
theorem execDecode_relocate {s : State} {skip skip' : Nat} {m : Memory} {n : Word}
    (hrem : remaining skip' ((s.setWire m).setWireLen n) = remaining skip s)
    (hread : ∀ j < remaining skip s, m.read (skip' + j) = s.wire.read (skip + j)) :
    execDecode skip' ((s.setWire m).setWireLen n) =
      mapNext (fun t => (t.setWire m).setWireLen n) (execDecode skip s) := by
  have hmem {k : Nat} (hk : k ≤ remaining skip s) : memRead m skip' k = memRead s.wire skip k :=
    memRead_congr_shift fun j hj => hread j (by omega)
  obtain ⟨hm, he⟩ | ⟨hm, hw, he⟩ | ⟨first, hm, hw, ⟨hh, he⟩ | ⟨hh, hb, he⟩ | ⟨b, hh, hb, he⟩⟩ :=
      execDecode_cases skip s <;> rw [he] <;> rw [← hrem] at hm
  · exact execDecode_of_short hm
  all_goals rw [← hmem (by omega)] at hw
  · exact execDecode_of_word0_unwritten hm hw
  all_goals rw [← hrem] at hh
  · exact execDecode_of_truncated hm hw hh
  all_goals rw [← hmem le_rfl, ← hrem] at hb
  · exact execDecode_of_unwritten hm hw hh hb
  · exact execDecode_of_read hm hw hh hb

/-- Settles O25: `execDecode_relocate` with the image where it is and at index 0; a `SKIP` over `WIRE_LEN` leaves no
octets. -/
theorem decodeSkipsWithoutReading : Obligations.DecodeSkipsWithoutReading := by
  refine fun s skip m => ⟨fun hread => ?_, fun hread n hn => ?_, fun h => execDecode_of_under_four (by omega)⟩
  · obtain ⟨hnext, hfault⟩ := next_and_fault_of_mapNext (execDecode_relocate (skip' := skip) (m := m) (n := s.wireLen)
      rfl fun j hj => hread _ (by omega) (by rw [remaining_eq] at hj; omega))
    refine ⟨fun t ht => (hnext t ht).trans ?_, hfault⟩
    rw [← execDecode_wireLen ht]
    rfl
  · exact next_and_fault_of_mapNext (execDecode_relocate (by rw [remaining_eq, remaining_eq]; exact hn)
      fun j hj => by rw [Nat.zero_add]; exact hread j (by rw [remaining_eq] at hj; omega))

/-! ### The fields -/

/-- A register that holds a value or, where its part is absent, zero. -/
theorem ite_word_toNat_le {present : Bool} {v : Word} {n : Nat} (h : v.toNat ≤ n) :
    (if present = true then v else 0).toNat ≤ n := by
  cases present with
  | false => exact Nat.zero_le n
  | true => exact h

/-- R83: every register of a decoded header passes its check. -/
theorem decodedFields_le_fieldMax (b : List Byte) (i : FieldIndex) : ((decodedFields b).get i).toNat ≤ fieldMax i := by
  have hhalf (v : Half) : (zext32 v).toNat ≤ 0xFFFF := Nat.le_of_lt_succ (zext32_toNat_lt v)
  have hword (v : Word) : v.toNat ≤ 0xFFFFFFFF := Nat.le_of_lt_succ v.isLt
  cases i with
  | cp | kp | sp => exact ite_word_toNat_le (v := 1) le_rfl
  | res0 =>
    simp only [Fields.get, decodedFields, extractLsb'_setWidth_eq, BitVec.toNat_ofNat, fieldMax]
    omega
  | ver =>
    simp only [Fields.get, decodedFields, extractLsb'_setWidth_eq, BitVec.toNat_ofNat, fieldMax]
    omega
  | proto => exact hhalf _
  | csum | res1 => exact ite_word_toNat_le (hhalf _)
  | key | seq => exact hword _

/-- R71, R83: `ENCODE`'s checks pass a decoded header. -/
theorem encodeFieldsLegal_decodedFields (b : List Byte) : encodeFieldsLegal (decodedFields b) :=
  (encodeChecked_pass _).1 (firstInvalid_eq_none.2 fun i _ => decodedFields_le_fieldMax b i)

/-- Settles O27: the registers of a decoded header pass their checks, and past those `ENCODE` has other endings. -/
theorem decodedFieldsAreLegal : Obligations.DecodedFieldsAreLegal := by
  intro s t skip ht hok
  obtain ⟨b, -, -, rfl⟩ := execDecode_ok ht hok
  refine ⟨decodedFields_le_fieldMax b, fun u hu => ?_⟩
  obtain ⟨-, hst⟩ | ⟨-, hst⟩ := execEncode_status_of_legal (encodeFieldsLegal_decodedFields b) hu <;>
    rw [hst, statusCode_statusWord] <;> decide

end Sys2Proof.Machine
end

section
/-! `ENCODE` of a decoded image: O41. -/

namespace Sys2Proof.Machine

/-! ### Parts of an image, taken out and put back -/

/-- R37: a 16-bit part that is read and written again is the two octets at its place. -/
theorem be16_w16_append_drop {b : List Byte} {i : Nat} (h : i + 2 ≤ b.length) :
    be16 (w16 b i) ++ b.drop (i + 2) = b.drop i := by
  rw [w16_of_getElem? (List.getElem?_eq_getElem (by omega)) (List.getElem?_eq_getElem (by omega)), be16_octetPair,
    List.drop_eq_getElem_cons (by omega : i < b.length), List.drop_eq_getElem_cons (by omega : i + 1 < b.length)]
  rfl

/-- R37: a 32-bit part is written as its two halves. -/
theorem be32_halfPair (hi lo : Half) : be32 (halfPair hi lo) = be16 hi ++ be16 lo := by
  have := hi.isLt
  have := lo.isLt
  apply List.map_injective_iff.2 fun _ _ => BitVec.eq_of_toNat_eq
  rw [List.map_append, be32_toNat, be16_toNat, be16_toNat, halfPair_toNat]
  simp only [List.cons_append, List.nil_append, List.cons.injEq, and_true]
  omega

/-- R80: a 32-bit part that is read and written again is the four octets at its place. -/
theorem be32_w32_append_drop {b : List Byte} {i : Nat} (h : i + 4 ≤ b.length) :
    be32 (w32 b i) ++ b.drop (i + 4) = b.drop i := by
  rw [w32, be32_halfPair, List.append_assoc, be16_w16_append_drop (by omega), be16_w16_append_drop (by omega)]

/-- R62, R83: an optional part of a decoded image, written again in front of the octets behind it. -/
theorem optionalPart_append_drop {present : Bool} {b : List Byte} {i : Nat} (h : i + partLength present ≤ b.length) :
    optionalPart present (if present = true then w32 b i else 0) ++ b.drop (i + partLength present) = b.drop i := by
  cases present with
  | false => rfl
  | true => exact be32_w32_append_drop h

/-! ### The header of a decoded image -/

/-- R20, R57: the registers of a decoded header have the shape that word 0 of the image has. -/
theorem shapeOfFields_decodedFields (b : List Byte) : shapeOfFields (decodedFields b) = shapeOfWord0 (w16 b 0) := by
  have hflag (present : Bool) : decide ((if present = true then 1 else 0 : Word) = 1#32) = present := by
    cases present <;> rfl
  exact congr (congr (congrArg Shape.mk (hflag _)) (hflag _)) (hflag _)

/-- R58: word 0 of a decoded header is the image's with bit 14 cleared. -/
theorem be16_word0_decodedFields (b : List Byte) :
    be16 (word0 (decodedFields b)) = [b.getD 0 0 &&& 0xBF, b.getD 1 0] := by
  have hmask (x : Byte) : (x &&& 0xBF).toNat = x.toNat / 0x80 * 0x80 + x.toNat % 0x40 := by
    revert x
    decide
  have hw0 : (w16 b 0).toNat = (b.getD 0 0).toNat * 0x100 + (b.getD 1 0).toNat := octetPair_toNat _ _
  have := (b.getD 0 0).isLt
  have := (b.getD 1 0).isLt
  rw [← be16_octetPair]
  refine congrArg be16 (BitVec.eq_of_toNat_eq ?_)
  rw [word0_toNat (encodeFieldsLegal_decodedFields b), octetPair_toNat, hmask]
  simp only [decodedFields, flagWord_c, flagWord_k, flagWord_s, extractLsb'_setWidth_eq, hw0, BitVec.toNat_ofNat]
  omega

/-- A 16-bit value in a register, taken out again. -/
theorem lowHalf_zext32 (v : Half) : lowHalf (zext32 v) = v :=
  BitVec.eq_of_toNat_eq (by
    have := v.isLt
    rw [lowHalf_toNat (zext32_toNat_lt v), zext32_eq, BitVec.toNat_ofNat]
    omega)

/-- R87: the octets behind the checksum part come back. -/
theorem optionalParts_decodedFields {b : List Byte} (h : (shapeOfWord0 (w16 b 0)).headerLength ≤ b.length) :
    optionalPart ((decodedFields b).kp = 1#32) (decodedFields b).key ++
        (optionalPart ((decodedFields b).sp = 1#32) (decodedFields b).seq ++ decodedPayload b) =
      b.drop (shapeOfWord0 (w16 b 0)).keyOffset := by
  have hshape := shapeOfFields_decodedFields b
  rw [← shapeOfFields_k, ← shapeOfFields_s, hshape]
  have hseq := optionalPart_append_drop (present := (shapeOfWord0 (w16 b 0)).s)
    (i := (shapeOfWord0 (w16 b 0)).seqOffset) h
  have hkey := optionalPart_append_drop (b := b) (present := (shapeOfWord0 (w16 b 0)).k)
    (i := (shapeOfWord0 (w16 b 0)).keyOffset) (le_trans (Nat.le_add_right _ _) h)
  exact (congrArg _ hseq).trans hkey

/-! ### The image of a decoded header -/

section
variable {b : List Byte} (h : (shapeOfWord0 (w16 b 0)).headerLength ≤ b.length)
include h

/-- R87: the protocol type and the octets behind the checksum part come back. -/
theorem wireImage_decodedFields :
    wireImage (decodedFields b) (decodedPayload b) =
      [b.getD 0 0 &&& 0xBF, b.getD 1 0] ++ (be16 (w16 b 2) ++
        (checksumPart (decodedFields b) (decodedPayload b) ++ b.drop (shapeOfWord0 (w16 b 0)).keyOffset)) := by
  have hproto : lowHalf (decodedFields b).proto = w16 b 2 := lowHalf_zext32 _
  rw [← optionalParts_decodedFields h, ← be16_word0_decodedFields, ← hproto]
  simp only [wireImage, List.append_assoc]

/-- R87: without a checksum the image comes back, but for bit 14 of word 0. -/
theorem wireImage_decodedFields_of_no_checksum (hc : (decodedFields b).cp ≠ 1#32) :
    wireImage (decodedFields b) (decodedPayload b) = b.set 0 (b.getD 0 0 &&& 0xBF) := by
  have hkey : (shapeOfWord0 (w16 b 0)).keyOffset = 4 := by
    simp [← shapeOfFields_decodedFields, Shape.keyOffset, partLength, hc]
  have hlen : 4 ≤ b.length := by
    rw [headerLength_shapeOfWord0] at h
    omega
  rw [wireImage_decodedFields h, checksumPart, if_neg hc, hkey, List.nil_append, be16_w16_append_drop (by omega)]
  match b, hlen with
  | hi :: lo :: r, _ => rfl

/-- R87: with a checksum its two octets are the recomputed ones, and the rest comes back but for bit 14 of word 0. -/
theorem wireImage_decodedFields_of_checksum (hc : (decodedFields b).cp = 1#32) :
    wireImage (decodedFields b) (decodedPayload b) =
      ((b.set 0 (b.getD 0 0 &&& 0xBF)).set 4
        ((checksum (decodedFields b) (decodedPayload b)).extractLsb' 8 8)).set 5
          ((checksum (decodedFields b) (decodedPayload b)).extractLsb' 0 8) := by
  have hflag : (shapeOfWord0 (w16 b 0)).c = true := by
    rw [← shapeOfFields_decodedFields, shapeOfFields_c, hc]
    rfl
  have hkey : (shapeOfWord0 (w16 b 0)).keyOffset = 8 := by
    simp only [Shape.keyOffset, hflag, partLength, if_true]
  have hlen : 8 ≤ b.length := by
    rw [keyOffset_shapeOfWord0] at hkey
    rw [headerLength_shapeOfWord0] at h
    omega
  have hres1 : lowHalf (decodedFields b).res1 = w16 b 6 := by
    simp only [decodedFields, hflag, if_true, lowHalf_zext32]
  rw [wireImage_decodedFields h, checksumPart, if_pos hc, hkey, hres1, List.append_assoc,
    be16_w16_append_drop (by omega)]
  generalize checksum (decodedFields b) (decodedPayload b) = cs
  match b, hlen with
  | b0 :: b1 :: b2 :: b3 :: b4 :: b5 :: r, _ =>
    have hproto : w16 (b0 :: b1 :: b2 :: b3 :: b4 :: b5 :: r) 2 = octetPair b2 b3 := rfl
    rw [hproto, be16_octetPair]
    rfl

/-- R87: what comes back of the image in every octet but the first and, with a checksum, the checksum's two. -/
theorem getElem?_wireImage_decodedFields {j : Nat} (hpos : 0 < j)
    (hj : ¬ ((decodedFields b).cp = 1#32 ∧ (j = 4 ∨ j = 5))) :
    (wireImage (decodedFields b) (decodedPayload b))[j]? = b[j]? := by
  by_cases hc : (decodedFields b).cp = 1#32
  · obtain ⟨h4, h5⟩ : j ≠ 4 ∧ j ≠ 5 := not_or.1 fun hor => hj ⟨hc, hor⟩
    rw [wireImage_decodedFields_of_checksum h hc, List.getElem?_set_ne h5.symm, List.getElem?_set_ne h4.symm,
      List.getElem?_set_ne hpos.ne]
  · rw [wireImage_decodedFields_of_no_checksum h hc, List.getElem?_set_ne hpos.ne]

/-- R87: the image of a decoded header is as long as the image decoded. -/
theorem wireImage_decodedFields_length : (wireImage (decodedFields b) (decodedPayload b)).length = b.length := by
  rw [wireImage_length, shapeOfFields_decodedFields, decodedPayload, List.length_drop]
  omega

end

/-! ### `ENCODE` after `DECODE` -/

section
variable {s : State} {skip : Nat} {b : List Byte} (hb : memRead s.wire skip (remaining skip s) = some b)
include hb

theorem storeDecoded_payLen_toNat : (storeDecoded b s).payLen.toNat = (decodedPayload b).length :=
  (BitVec.toNat_ofNat _ _).trans (Nat.mod_eq_of_lt (decodedPayload_length_lt hb))

/-- R84: the payload stored is the payload that `ENCODE` reads. -/
theorem memRead_storeDecoded_pay :
    memRead (storeDecoded b s).pay 0 (storeDecoded b s).payLen.toNat = some (decodedPayload b) := by
  rw [storeDecoded_payLen_toNat hb]
  exact (memWriteThenMemReadGivesTheOctets s.pay 0 (decodedPayload b)).1

/-- R61, R87: `ENCODE` of a decoded header stores as many octets as the image has. -/
theorem encodeLength_storeDecoded (hh : (shapeOfWord0 (w16 b 0)).headerLength ≤ b.length) :
    encodeLength (storeDecoded b s) = b.length := by
  rw [encodeLength, storeDecoded_payLen_toNat hb, ← wireImage_decodedFields_length hh, wireImage_length]
  rfl

/-- R87: `ENCODE` of a decoded header whose image fits stores the header's image and the image's length. -/
theorem execEncode_storeDecoded (hh : (shapeOfWord0 (w16 b 0)).headerLength ≤ b.length)
    (hfits : b.length ≤ s.cfg.bufMax) :
    execEncode (storeDecoded b s) =
      .next ((((storeDecoded b s).setWire
        (memWrite s.wire 0 (wireImage (decodedFields b) (decodedPayload b)))).setWireLen
          (BitVec.ofNat 32 b.length)).finish .ok 0) := by
  have hlen := encodeLength_storeDecoded hb hh
  refine (execEncode_of_read ((encodeChecked_pass _).2 (encodeFieldsLegal_decodedFields b)) ?_
    (memRead_storeDecoded_pay hb)).trans ?_
  · exact hlen.trans_le hfits
  · rw [hlen]
    rfl

end

/-- Settles O41: `DECODE` has stored what the image holds, and `ENCODE` stores the image of that header. -/
theorem decodeThenEncodeGivesTheImageBack : Obligations.DecodeThenEncodeGivesTheImageBack := by
  intro s t skip hmax ht hok
  obtain ⟨b, hb, hh, rfl⟩ := execDecode_ok ht hok
  have hlen : b.length = s.wireLen.toNat - skip := (memRead_eq_some hb).1.trans (remaining_eq skip s)
  have hlt := s.wireLen.isLt
  have layout := wireLayout_memWrite s.wire (decodedFields b) (decodedPayload b)
  have hword0 := layout.word0
  rw [be16_word0_decodedFields] at hword0
  refine ⟨_, b, decodedPayload b, by rwa [← remaining_eq], memRead_storeDecoded_pay hb,
    execEncode_storeDecoded hb hh (by omega), statusWord_ok, ?_, (memRead_eq_some hword0).2 0 (by decide), fun hc => ?_,
    fun j hpos hj hne => ?_⟩
  · rw [State.finish_wireLen, State.setWireLen_wireLen, BitVec.toNat_ofNat, hlen, Nat.mod_eq_of_lt (by omega)]
  · obtain ⟨-, hoct⟩ := memRead_eq_some (layout.checksum hc)
    exact ⟨hoct 0 (by decide), hoct 1 (by decide)⟩
  · rw [← getElem?_wireImage_decodedFields hh hpos hne, State.finish_wire, State.setWireLen_wire, State.setWire_wire,
      read_memWrite, wireImage_decodedFields_length hh, if_pos (by omega), Nat.sub_zero]

end Sys2Proof.Machine
end

section
/-! The fold and the accumulators: O34 and O36. -/

namespace Sys2Proof.Machine

/-! ### The fold -/

/-- R92: rounds beyond as many as the value change nothing, since each round makes it smaller. -/
theorem foldRounds_eq_of_le {n k m : Nat} (hk : n ≤ k) (hm : n ≤ m) : foldRounds k n = foldRounds m n := by
  induction k generalizing n m with
  | zero =>
    obtain rfl : n = 0 := by omega
    cases m <;> rfl
  | succ k ih =>
    cases m with
    | zero =>
      obtain rfl : n = 0 := by omega
      rfl
    | succ m =>
      by_cases hn : 0xFFFF < n
      · have hlt := foldRound_lt hn
        simp only [foldRounds, if_pos hn]
        exact ih (by omega) (by omega)
      · simp only [foldRounds, if_neg hn]

/-- R92: the loop has ended. -/
theorem fold_of_le {n : Nat} (h : n ≤ 0xFFFF) : fold n = n := by
  cases n with
  | zero => rfl
  | succ n => simp only [fold, foldRounds, if_neg h.not_gt]

/-- R92: one round of the loop. -/
theorem fold_of_gt {n : Nat} (h : 0xFFFF < n) : fold n = fold ((n >>> 16) + (n &&& 0xFFFF)) := by
  have hlt := foldRound_lt h
  obtain ⟨n, rfl⟩ : ∃ m, n = m + 1 := ⟨n - 1, by omega⟩
  simp only [fold, foldRounds, if_pos h]
  exact foldRounds_eq_of_le (by omega) le_rfl

/-- R92: every round keeps the residue modulo `0xFFFF` and the sign, and the loop ends in 16 bits. -/
theorem fold_spec (n : Nat) : fold n ≤ 0xFFFF ∧ (fold n = 0 ↔ n = 0) ∧ fold n % 0xFFFF = n % 0xFFFF := by
  induction n using Nat.strong_induction_on with
  | _ n ih =>
    by_cases h : 0xFFFF < n
    · obtain ⟨hle, hzero, hmod⟩ := ih _ (foldRound_lt h)
      have hpos := foldRound_pos h
      rw [foldRound_mod] at hmod
      rw [fold_of_gt h]
      exact ⟨hle, by omega, hmod⟩
    · rw [fold_of_le (by omega)]
      exact ⟨by omega, Iff.rfl, rfl⟩

theorem fold_le (n : Nat) : fold n ≤ 0xFFFF := (fold_spec n).1

theorem fold_eq_zero_iff (n : Nat) : fold n = 0 ↔ n = 0 := (fold_spec n).2.1

/-- R92: residue and sign determine the fold. -/
theorem fold_congr {n m : Nat} (hzero : n = 0 ↔ m = 0) (hmod : n % 0xFFFF = m % 0xFFFF) : fold n = fold m := by
  have hn := fold_spec n
  have hm := fold_spec m
  omega

/-- R94: a sum may be folded on the way. -/
theorem fold_fold_add (n m : Nat) : fold (fold n + m) = fold (n + m) := by
  have hn := fold_spec n
  exact fold_congr (by omega) (by omega)

/-- R97: a sum folds to `0xFFFF` when it is a positive multiple of it. -/
theorem fold_eq_max_iff (n : Nat) : fold n = 0xFFFF ↔ 0 < n ∧ n % 0xFFFF = 0 := by
  have hn := fold_spec n
  omega

/-- Settles O34: the loop's equation, and `fold_spec`. -/
theorem foldIsTheOnesComplementResidue : Obligations.FoldIsTheOnesComplementResidue :=
  fun n => ⟨fold_of_le, fold_of_gt, fold_spec n⟩

/-! ### The accumulators -/

/-- R91: two octets a word, the last one alone where the length is odd. -/
theorem payloadWords_length (p : List Byte) : (payloadWords p).length = (p.length + 1) / 2 := by
  induction p using payloadWords.induct with
  | case1 => rfl
  | case2 b => simp
  | case3 b b' p ih =>
    simp only [payloadWords_cons, List.length_cons, ih]
    omega

theorem optionalWords_length_le (present : Bool) (v : Word) : (optionalWords present v).length ≤ 2 := by
  cases present <;> simp [optionalWords]

/-- R94: 8 words of the header at most, and those of the payload. -/
theorem checksumWords_length_le (f : Fields) (p : List Byte) :
    (checksumWords f p).length ≤ 8 + (p.length + 1) / 2 := by
  have hkey := optionalWords_length_le (f.kp = 1#32) f.key
  have hseq := optionalWords_length_le (f.sp = 1#32) f.seq
  simp only [checksumWords, List.length_append, payloadWords_length, List.length_cons, List.length_nil]
  omega

/-- A sum of 16-bit words. -/
theorem wordSum_le (ws : List Half) : wordSum ws ≤ ws.length * 0xFFFF := by
  induction ws with
  | nil => rfl
  | cons w ws ih =>
    have := w.isLt
    rw [wordSum_cons, List.length_cons]
    omega

/-- R94: an accumulator that wraps keeps the sum modulo its range. -/
theorem foldl_accumulate (k : Nat) (ws : List Half) {r : Nat} (hr : r < 2 ^ k) :
    ws.foldl (fun r w => (r + w.toNat) % 2 ^ k) r = (r + wordSum ws) % 2 ^ k := by
  induction ws generalizing r with
  | nil => exact (Nat.mod_eq_of_lt hr).symm
  | cons w ws ih =>
    rw [List.foldl_cons, ih (Nat.mod_lt _ (Nat.two_pow_pos k)), Nat.mod_add_mod, wordSum_cons, Nat.add_assoc]

theorem accumulate_eq_mod (k : Nat) (ws : List Half) : accumulate k ws = wordSum ws % 2 ^ k := by
  rw [accumulate, foldl_accumulate k ws (Nat.two_pow_pos k), Nat.zero_add]

/-- R94: a `k`-bit accumulator is exact for the sums below `2^k`. -/
theorem accumulate_eq_wordSum_iff (k : Nat) (ws : List Half) :
    accumulate k ws = wordSum ws ↔ wordSum ws < 2 ^ k := by
  rw [accumulate_eq_mod, Nat.mod_eq_iff_lt (Nat.two_pow_pos k).ne']

/-- R94: an accumulator 16 bits wider than the number of words needs holds the sum. -/
theorem wordSum_lt_two_pow {ws : List Half} {n k : Nat} (hlen : ws.length ≤ n) (hn : 0 < n)
    (hk : 16 + Nat.clog 2 n ≤ k) : wordSum ws < 2 ^ k :=
  calc wordSum ws ≤ ws.length * 0xFFFF := wordSum_le ws
    _ < 2 ^ 16 * n := by omega
    _ ≤ 2 ^ 16 * 2 ^ Nat.clog 2 n := Nat.mul_le_mul_left _ (Nat.le_pow_clog Nat.one_lt_two n)
    _ = 2 ^ (16 + Nat.clog 2 n) := (Nat.pow_add 2 16 _).symm
    _ ≤ 2 ^ k := Nat.pow_le_pow_right Nat.two_pos hk

/-- R94: end-around carry after every word keeps the fold of what has been added. -/
theorem foldl_endAround (ws : List Half) (n : Nat) :
    ws.foldl (fun r w => fold (r + w.toNat)) (fold n) = fold (n + wordSum ws) := by
  induction ws generalizing n with
  | nil => rfl
  | cons w ws ih => rw [List.foldl_cons, fold_fold_add, ih, wordSum_cons, Nat.add_assoc]

/-- R94: the accumulator with end-around carry ends with the fold of the sum. -/
theorem endAroundSum_eq (ws : List Half) : endAroundSum ws = fold (wordSum ws) :=
  (foldl_endAround ws 0).trans (by rw [Nat.zero_add])

/-- Settles O36: the bound on the word list, and both accumulators by their running value. -/
theorem accumulatorsAgreeWithTheFold : Obligations.AccumulatorsAgreeWithTheFold := by
  refine ⟨fun f p bufMax hp => ?_, fun ws k => accumulate_eq_wordSum_iff k ws, endAroundSum_eq⟩
  have hlen : (checksumWords f p).length ≤ 8 + (bufMax + 1) / 2 := (checksumWords_length_le f p).trans (by omega)
  exact ⟨hlen, fun k hk => (accumulate_eq_wordSum_iff k _).2 (wordSum_lt_two_pow hlen (by omega) hk)⟩

end Sys2Proof.Machine
end

section
/-! The word list and the checksum function: O32, O33, O35, O37 and O38. -/

namespace Sys2Proof.Machine

/-! ### The payload words -/

/-- R91, R98: an odd last octet gives the word that it gives with a zero octet behind it. -/
theorem payloadWords_append_zero {p : List Byte} (h : p.length % 2 = 1) :
    payloadWords (p ++ [0#8]) = payloadWords p := by
  induction p using payloadWords.induct with
  | case1 => cases h
  | case2 b => rfl
  | case3 b b' p ih =>
    simp only [List.length_cons] at h
    simp only [List.cons_append, payloadWords_cons, ih (by omega)]

/-- R91: word `j` pairs the octets `2j` and `2j + 1`. -/
theorem payloadWords_getElem? {p : List Byte} {j : Nat} {a b : Byte} (ha : p[2 * j]? = some a)
    (hb : p[2 * j + 1]? = some b) : (payloadWords p)[j]? = some (octetPair a b) := by
  induction p using payloadWords.induct generalizing j with
  | case1 => cases ha
  | case2 c => simp at hb
  | case3 c c' p ih =>
    cases j with
    | zero =>
      cases ha
      cases hb
      rfl
    | succ j =>
      have hstep : 2 * (j + 1) = 2 * j + 1 + 1 := by omega
      rw [hstep, List.getElem?_cons_succ, List.getElem?_cons_succ] at ha hb
      rw [payloadWords_cons, List.getElem?_cons_succ]
      exact ih ha hb

/-- Settles O33: the pairs, and an odd last octet as the first of a pair with the padding octet. -/
theorem payloadWordsPairTheOctets : Obligations.PayloadWordsPairTheOctets := by
  refine fun p => ⟨payloadWords_length p, fun j a b ha hb => ?_, fun a hodd ha => ?_⟩
  · rw [payloadWords_getElem? ha hb, Option.map_some, octetPair_toNat]
  · have hlast : 2 * ((p.length - 1) / 2) = p.length - 1 := by omega
    have hpair : (payloadWords (p ++ [0#8]))[(p.length - 1) / 2]? = some (octetPair a 0) := by
      refine payloadWords_getElem? ?_ ?_ <;> rw [hlast]
      · rwa [List.getElem?_append_left (by omega)]
      · rw [Nat.sub_add_cancel (by omega), List.getElem?_append_right le_rfl, Nat.sub_self]
        rfl
    have hzero : (0 : Byte).toNat = 0 := rfl
    rw [← payloadWords_append_zero hodd, hpair, Option.map_some, octetPair_toNat, hzero, Nat.add_zero]

/-! ### The word list -/

/-- R96 asks of `F_RES1` what R71 asks of it when it is present. -/
theorem encodeFieldsLegal_of_checksum {f : Fields} (h : checksumFieldsLegal f) : encodeFieldsLegal f := by
  obtain ⟨hc, hk, hs, hr, hv, hp, hr1⟩ := h
  exact ⟨hc, hk, hs, hr, hv, hp, fun _ => hr1⟩

/-- R90: the words of an optional field, as numbers. -/
theorem optionalWords_toNat (present : Bool) (v : Word) :
    (optionalWords present v).map BitVec.toNat =
      if present = true then [v.toNat / 0x10000, v.toNat % 0x10000] else [] := by
  have hhigh : (highHalf v).toNat = v.toNat / 0x10000 := by
    rw [highHalf, BitVec.extractLsb'_toNat, Nat.shiftRight_eq_div_pow]
    exact Nat.mod_eq_of_lt (by have := v.isLt; omega)
  have hlow : (lowHalf v).toNat = v.toNat % 0x10000 := by rw [lowHalf_eq, BitVec.toNat_ofNat]
  cases present with
  | false => rfl
  | true => simp only [optionalWords, if_true, List.map_cons, List.map_nil, hhigh, hlow]

/-- Settles O32: each word as a number. -/
theorem checksumSumsTheHeaderWords : Obligations.ChecksumSumsTheHeaderWords := by
  intro f p h
  have hword0 := word0_toNat (encodeFieldsLegal_of_checksum h)
  obtain ⟨-, -, -, -, -, hproto, hres1⟩ := h
  simp only [checksumWords, List.map_append, List.map_cons, List.map_nil, optionalWords_toNat, decide_eq_true_eq,
    hword0, lowHalf_toNat (Nat.lt_succ_of_le hproto), lowHalf_toNat (Nat.lt_succ_of_le hres1)]
  rfl

/-! ### The checksum -/

section
variable (f : Fields) (p : List Byte)

/-- R93: the checksum as a number. -/
theorem checksum_toNat : (checksum f p).toNat = 0xFFFF - fold (wordSum (checksumWords f p)) := by
  have hle := fold_le (wordSum (checksumWords f p))
  rw [checksum, BitVec.toNat_not, BitVec.toNat_ofNat, Nat.mod_eq_of_lt (by omega)]

theorem checksum_eq_zero_iff : checksum f p = 0x0000 ↔ fold (wordSum (checksumWords f p)) = 0xFFFF := by
  have hle := fold_le (wordSum (checksumWords f p))
  have hzero : (0x0000 : Half).toNat = 0 := rfl
  rw [← BitVec.toNat_inj, checksum_toNat, hzero]
  omega

theorem checksum_eq_max_iff : checksum f p = 0xFFFF ↔ wordSum (checksumWords f p) = 0 := by
  have hle := fold_le (wordSum (checksumWords f p))
  have hmax : (0xFFFF : Half).toNat = 0xFFFF := rfl
  rw [← fold_eq_zero_iff, ← BitVec.toNat_inj, checksum_toNat, hmax]
  omega

end

/-- Settles O35: the checksum as a number, and its two ends. -/
theorem checksumIsTheComplementOfTheFold : Obligations.ChecksumIsTheComplementOfTheFold :=
  fun f p => ⟨checksum_toNat f p, checksum_eq_zero_iff f p, checksum_eq_max_iff f p⟩

/-- Settles O37: registers that agree in what is summed give the same words; an absent part has none. -/
theorem checksumDependsOnItsInputsOnly : Obligations.ChecksumDependsOnItsInputsOnly := by
  intro f g p hcp hkp hsp hres0 hver hproto hres1 hkey hseq
  have hword0 : word0 g = word0 f := by simp only [word0, hcp, hkp, hsp, hres0, hver]
  have hkeyWords : optionalWords (f.kp = 1#32) g.key = optionalWords (f.kp = 1#32) f.key :=
    optionalWords_congr (by simpa using hkey)
  have hseqWords : optionalWords (f.sp = 1#32) g.seq = optionalWords (f.sp = 1#32) f.seq :=
    optionalWords_congr (by simpa using hseq)
  simp only [checksum, checksumWords, hword0, hproto, hres1, hkp, hsp, hkeyWords, hseqWords]

/-- Settles O38: the padded payload has the same words, and its image is one octet longer. -/
theorem oddPayloadsPadWithZero : Obligations.OddPayloadsPadWithZero := by
  intro f p hodd
  have hwords := payloadWords_append_zero hodd
  refine ⟨hwords, by simp only [checksum, checksumWords, hwords], fun himage => ?_⟩
  have hlen := congrArg List.length himage
  simp only [wireImage_length, List.length_append, List.length_singleton] at hlen
  omega

end Sys2Proof.Machine
end

section
/-! The endings of `CHECKSUM` as numbers, and its frame: O29, O30 and O31. -/

namespace Sys2Proof.Machine

/-- Settles O29: the ending of `CHECKSUM` that stores the result, as a number. -/
theorem checksumCompletesWithTheResult : Obligations.ChecksumCompletesWithTheResult := by
  intro s p hf hp
  refine (execChecksum_of_read ((checksumChecked_pass s.f).2 hf) hp).trans ?_
  rw [zext32_eq, checksum_toNat, State.finish, statusWord_ok]
  rfl

section
variable {s : State}

/-- R96, R102: `CHECKSUM` ends with `InvalidFieldWidth` of the register that fails behind others that pass. -/
theorem execChecksum_of_first_invalid {is js : List FieldIndex} {i : FieldIndex}
    (hchecked : checksumChecked = is ++ i :: js) (hpass : ∀ j ∈ is, (s.f.get j).toNat ≤ fieldMax j)
    (hfail : fieldMax i < (s.f.get i).toNat) :
    execChecksum s = .next { s with status := BitVec.ofNat 32 (fieldNumber i * 0x10000 + 1) } := by
  have hf : firstInvalid checksumChecked s.f = some i := hchecked ▸ firstInvalid_append_cons hpass hfail
  have hi := fieldNumber_le i
  rw [execChecksum_of_invalid hf, State.finish, statusWord_eq _ (by omega)]
  rfl

/-- R96: past the field checks, `CHECKSUM` that goes on has read the payload and stored the result. -/
theorem execChecksum_of_legal {t : State} (hf : checksumFieldsLegal s.f) (ht : execChecksum s = .next t) :
    ∃ p, memRead s.pay 0 s.payLen.toNat = some p ∧
      t = (s.setCsumResult (zext32 (checksum s.f p))).finish .ok 0 := by
  have hnone := (checksumChecked_pass s.f).2 hf
  obtain ⟨i, hi, -⟩ | ⟨-, -, he⟩ | ⟨p, -, hp, he⟩ := execChecksum_cases s
  · rw [hnone] at hi
    cases hi
  all_goals
    rw [he] at ht
    cases ht
  exact ⟨p, hp, rfl⟩

end

/-- Settles O30: `execChecksum_of_first_invalid` at each register checked, and the ending past the checks. -/
theorem checksumReportsTheLowestInvalidField : Obligations.ChecksumReportsTheLowestInvalidField := by
  refine fun s => ⟨fun h => ?_, fun hc h => ?_, fun hc hk h => ?_, fun hc hk hs h => ?_, fun hc hk hs hr h => ?_,
    fun hc hk hs hr hv h => ?_, fun hc hk hs hr hv hp h => ?_, fun hc hk hs hr hv hp hr1 t ht => ?_⟩
  · exact execChecksum_of_first_invalid (i := .cp) (is := []) rfl (by simp) h
  · exact execChecksum_of_first_invalid (i := .kp) (is := [.cp]) rfl (by simp [Fields.get, fieldMax, hc]) h
  · exact execChecksum_of_first_invalid (i := .sp) (is := [.cp, .kp]) rfl (by simp [Fields.get, fieldMax, hc, hk]) h
  · exact execChecksum_of_first_invalid (i := .res0) (is := [.cp, .kp, .sp]) rfl
      (by simp [Fields.get, fieldMax, hc, hk, hs]) h
  · exact execChecksum_of_first_invalid (i := .ver) (is := [.cp, .kp, .sp, .res0]) rfl
      (by simp [Fields.get, fieldMax, hc, hk, hs, hr]) h
  · exact execChecksum_of_first_invalid (i := .proto) (is := [.cp, .kp, .sp, .res0, .ver]) rfl
      (by simp [Fields.get, fieldMax, hc, hk, hs, hr, hv]) h
  · exact execChecksum_of_first_invalid (i := .res1) (is := [.cp, .kp, .sp, .res0, .ver, .proto]) rfl
      (by simp [Fields.get, fieldMax, hc, hk, hs, hr, hv, hp]) h
  · obtain ⟨p, -, rfl⟩ := execChecksum_of_legal ⟨hc, hk, hs, hr, hv, hp, hr1⟩ ht
    rw [State.finish_status, statusCode_statusWord]
    decide

/-- R16, R96, R102: all that `CHECKSUM` writes is `CSUM_RESULT` and `STATUS`; only `STATUS` when it ends with an
error. -/
theorem execChecksum_writes {s t : State} (ht : execChecksum s = .next t) :
    ∃ v w : Word, t = (s.setCsumResult v).setStatus w ∧ (w ≠ 0#32 → v = s.csumResult) := by
  obtain ⟨i, -, he⟩ | ⟨-, -, he⟩ | ⟨p, -, -, he⟩ := execChecksum_cases s <;> rw [he] at ht <;> cases ht
  · exact ⟨s.csumResult, _, rfl, fun _ => rfl⟩
  · exact ⟨_, _, rfl, fun hw => absurd statusWord_ok hw⟩

/-- Settles O31: what `CHECKSUM` writes, field by field. -/
theorem checksumLeavesTheRestUnchanged : Obligations.ChecksumLeavesTheRestUnchanged := by
  intro s t ht
  obtain ⟨v, w, rfl, herr⟩ := execChecksum_writes ht
  exact ⟨rfl, rfl, rfl, rfl, rfl, fun _ => rfl, fun _ => rfl, rfl, rfl, rfl, rfl, herr⟩

end Sys2Proof.Machine
end

section
/-! The checksum of an image, sent and received: O42 and O43. -/

namespace Sys2Proof.Machine

/-! ### The words of an encoded image -/

/-- R91: a 16-bit part in front is one word. -/
theorem payloadWords_be16_append (v : Half) (r : List Byte) : payloadWords (be16 v ++ r) = v :: payloadWords r :=
  congrArg (· :: payloadWords r) (octetPair_be16 v)

/-- R90, R91: an optional part in front is the words that the checksum sums for it. -/
theorem payloadWords_optionalPart_append (present : Bool) (v : Word) (r : List Byte) :
    payloadWords (optionalPart present v ++ r) = optionalWords present v ++ payloadWords r := by
  cases present with
  | false => rfl
  | true =>
    have hhalves : be32 v = be16 (highHalf v) ++ be16 (lowHalf v) := by rw [← be32_halfPair, halfPair_halves]
    simp only [optionalPart, optionalWords, if_true, hhalves, List.append_assoc, payloadWords_be16_append,
      List.cons_append, List.nil_append]

/-- R97: the words of an image with a checksum are those summed for it, with the checksum for the zero word. -/
theorem wordSum_payloadWords_wireImage {f : Fields} (hc : f.cp = 1#32) (p : List Byte) :
    wordSum (payloadWords (wireImage f p)) = wordSum (checksumWords f p) + (checksum f p).toNat := by
  have hzero : (0 : Half).toNat = 0 := rfl
  simp only [wireImage, checksumPart, hc, if_true, List.append_assoc, payloadWords_be16_append,
    payloadWords_optionalPart_append, checksumWords, wordSum_cons, wordSum_append, wordSum_nil, hzero]
  omega

/-- R97: a sum and the complement of its fold fold to `0xFFFF`. -/
theorem fold_add_complement (n : Nat) : fold (n + (0xFFFF - fold n)) = 0xFFFF := by
  have hn := fold_spec n
  rw [fold_eq_max_iff]
  omega

/-- R97: the image of a header with a checksum verifies. -/
theorem fold_wireImage {f : Fields} (hc : f.cp = 1#32) (p : List Byte) :
    fold (wordSum (payloadWords (wireImage f p))) = 0xFFFF := by
  rw [wordSum_payloadWords_wireImage hc, checksum_toNat, fold_add_complement]

/-- R42, R61: the image that an `ENCODE` with `OK` has stored reads back from `WIRE[0..WIRE_LEN)`. -/
theorem memRead_of_execEncode_ok {s t : State} (hcfg : s.cfg.wf) (ht : execEncode s = .next t) (hok : t.status = 0#32) :
    ∃ p, memRead t.wire 0 t.wireLen.toNat = some (wireImage s.f p) := by
  obtain ⟨-, p, hp, hl, hwire, hlen⟩ := execEncode_ok ht hok
  obtain ⟨-, hmax⟩ := hcfg
  have htotal : t.wireLen.toNat = (wireImage s.f p).length := by
    rw [hlen, BitVec.toNat_ofNat, Nat.mod_eq_of_lt (by omega), wireImage_length, (memRead_eq_some hp).1, encodeLength]
  exact ⟨p, by rw [hwire, htotal, memRead_memWrite_wireImage]⟩

/-- Settles O42: the stored image is that of a header with a checksum, and verifies. -/
theorem encodedImagesVerify : Obligations.EncodedImagesVerify := by
  intro s t hcfg hc ht hok
  obtain ⟨p, himage⟩ := memRead_of_execEncode_ok hcfg ht hok
  exact ⟨_, himage, fold_wireImage hc p⟩

/-! ### The words of a received image -/

/-- R58: clearing bit 14 of a word 0 that has it clear changes nothing. -/
theorem set_zero_of_bit14_clear {b : List Byte} (h : (w16 b 0).getLsbD 14 = false) :
    b.set 0 (b.getD 0 0 &&& 0xBF) = b := by
  have hmask (x : Byte) : x.getLsbD 6 = false → x &&& 0xBF = x := by
    revert x
    decide
  cases b with
  | nil => rfl
  | cons x r =>
    have hbit : x.getLsbD 6 = false := by simpa [w16, octetPair] using h
    exact congrArg (· :: r) (hmask x hbit)

/-- R91: the words of an image with another checksum in it. -/
theorem wordSum_payloadWords_set_checksum {b : List Byte} (h : 6 ≤ b.length) (v : Half) :
    wordSum (payloadWords ((b.set 4 (v.extractLsb' 8 8)).set 5 (v.extractLsb' 0 8))) + (w16 b 4).toNat =
      wordSum (payloadWords b) + v.toNat := by
  match b, h with
  | b0 :: b1 :: b2 :: b3 :: b4 :: b5 :: r, _ =>
    have hw16 : w16 (b0 :: b1 :: b2 :: b3 :: b4 :: b5 :: r) 4 = octetPair b4 b5 := rfl
    simp only [List.set_cons_succ, List.set_cons_zero, payloadWords_cons, wordSum_cons, octetPair_be16, hw16]
    omega

section
variable {b : List Byte} (hh : (shapeOfWord0 (w16 b 0)).headerLength ≤ b.length) (hc : (decodedFields b).cp = 1#32)
include hc

/-- R57: the registers of a decoded header have the checksum flag that word 0 of the image has. -/
theorem shapeOfWord0_c_of_cp : (shapeOfWord0 (w16 b 0)).c = true := by
  rw [← shapeOfFields_decodedFields, shapeOfFields_c, hc]
  rfl

/-- R83: `F_CSUM` is the received checksum. -/
theorem decodedFields_csum : (decodedFields b).csum = zext32 (w16 b 4) := if_pos (shapeOfWord0_c_of_cp hc)

include hh

theorem eight_le_length_of_cp : 8 ≤ b.length := by
  have hflag := shapeOfWord0_c_of_cp hc
  simp only [Shape.headerLength, hflag, partLength, if_true] at hh
  omega

/-- R99: the words of a received image are those that `CHECKSUM` sums, with the received checksum for the zero word. -/
theorem wordSum_payloadWords_of_decoded (h14 : (w16 b 0).getLsbD 14 = false) :
    wordSum (payloadWords b) =
      wordSum (checksumWords (decodedFields b) (decodedPayload b)) + (w16 b 4).toNat := by
  have hlen := eight_le_length_of_cp hh hc
  have hset := wordSum_payloadWords_set_checksum (b := b) (by omega)
    (checksum (decodedFields b) (decodedPayload b))
  have himage := wireImage_decodedFields_of_checksum hh hc
  rw [set_zero_of_bit14_clear h14] at himage
  rw [← himage, wordSum_payloadWords_wireImage hc] at hset
  omega

end

/-- R90: word 0 of a legal header with a checksum is not zero, and neither is the sum. -/
theorem wordSum_checksumWords_pos {f : Fields} (h : encodeFieldsLegal f) (hc : f.cp = 1#32) (p : List Byte) :
    0 < wordSum (checksumWords f p) := by
  have hword0 := word0_toNat h
  rw [eq_one_iff_toNat] at hc
  simp only [checksumWords, wordSum_append, wordSum_cons]
  omega

/-- R99: a positive sum and a word fold to `0xFFFF` when the word is the complement of the sum's fold, and when both
are the other zero. -/
theorem fold_add_eq_max_iff {n c : Nat} (hn : 0 < n) (hc : c ≤ 0xFFFF) :
    fold (n + c) = 0xFFFF ↔ c = 0xFFFF - fold n ∨ (0xFFFF - fold n = 0 ∧ c = 0xFFFF) := by
  have hfold := fold_spec n
  rw [fold_eq_max_iff]
  omega

/-! ### The two tests -/

theorem zext32_toNat (v : Half) : (zext32 v).toNat = v.toNat := by
  rw [zext32, BitVec.toNat_setWidth_of_le (by omega)]

theorem zext32_inj {v w : Half} : zext32 v = zext32 w ↔ v = w := by
  rw [← BitVec.toNat_inj, zext32_toNat, zext32_toNat, BitVec.toNat_inj]

/-- R37: a word of a sequence is the value whose octets stand at its place. -/
theorem w16_eq_iff {b : List Byte} {i : Nat} (h : i + 1 < b.length) (v : Half) :
    w16 b i = v ↔ (be16 v)[0]? = b[i]? ∧ (be16 v)[1]? = b[i + 1]? := by
  have hhi := List.getElem?_eq_getElem (l := b) (i := i) (by omega)
  have hlo := List.getElem?_eq_getElem h
  constructor
  · rintro rfl
    rw [w16_of_getElem? hhi hlo, be16_octetPair, hhi, hlo]
    exact ⟨rfl, rfl⟩
  · rintro ⟨h0, h1⟩
    exact (w16_of_getElem? h0.symm h1.symm).trans (octetPair_be16 v)

/-- R83, R96: `CHECKSUM`'s checks pass a decoded header. -/
theorem checksumFieldsLegal_decodedFields (b : List Byte) : checksumFieldsLegal (decodedFields b) :=
  (checksumChecked_pass _).1 (firstInvalid_eq_none.2 fun i _ => decodedFields_le_fieldMax b i)

/-- Settles O43: `CHECKSUM` sums the decoded header and payload; the octets that `ENCODE` stores are those of the
result, and the sum test is `fold_add_eq_max_iff` for the received checksum. -/
theorem receiveSideTestsAgree : Obligations.ReceiveSideTestsAgree := by
  intro s t u skip b hmax hb ht hok hc hu
  rw [← remaining_eq] at hb
  obtain ⟨b', hb', hh, rfl⟩ := execDecode_ok ht hok
  obtain rfl : b = b' := Option.some.inj (hb.symm.trans hb')
  obtain ⟨p, hp, rfl⟩ := execChecksum_of_legal (checksumFieldsLegal_decodedFields b) hu
  obtain rfl : decodedPayload b = p := Option.some.inj ((memRead_storeDecoded_pay hb).symm.trans hp)
  change (decodedFields b).cp = 1#32 at hc
  have hlen := (memRead_eq_some hb).1.trans (remaining_eq skip s)
  have height := eight_le_length_of_cp hh hc
  have hcsum := decodedFields_csum hc
  set cs := checksum (decodedFields b) (decodedPayload b)
  refine ⟨statusWord_ok, fun v hv _ => ?_, fun h14 => ?_⟩
  · change (decodedFields b).csum = zext32 cs ↔ _
    obtain rfl := Host.Outcome.next.inj ((execEncode_storeDecoded hb hh (by omega)).symm.trans hv)
    have hcsumPart := (wireLayout_memWrite s.wire (decodedFields b) (decodedPayload b)).checksum hc
    obtain ⟨-, hoct⟩ := memRead_eq_some hcsumPart
    rw [hcsum, zext32_inj, w16_eq_iff (by omega), ← hoct 0 (by decide), ← hoct 1 (by decide)]
    rfl
  · change _ ↔ (decodedFields b).csum = zext32 cs ∨ (zext32 cs = 0 ∧ (decodedFields b).csum = 0xFFFF)
    rw [wordSum_payloadWords_of_decoded hh hc h14,
      fold_add_eq_max_iff (wordSum_checksumWords_pos (encodeFieldsLegal_decodedFields b) hc _)
        (Nat.le_of_lt_succ (w16 b 4).isLt), ← checksum_toNat, hcsum]
    simp only [← BitVec.toNat_inj, zext32_toNat]
    rfl

end Sys2Proof.Machine
end

section
/-! How a command ends: O47 and O54. -/

namespace Sys2Proof.Machine

/-- R44, R100, R102: a command faults on an unwritten octet, or finishes with an outcome and an `INFO` that goes with it
(R14); one that finishes with an error has changed nothing before. No other ending, and no refusal. -/
theorem exec_endings (i : Instr) (s : State) :
    exec i s = .fault .unwrittenByte ∨
      ∃ u c n, infoFits c n = true ∧ (c = .ok ∨ u = s) ∧ exec i s = .next (u.finish c n) := by
  cases i with
  | encode =>
    obtain ⟨i, -, he⟩ | ⟨-, -, he⟩ | ⟨-, -, -, he⟩ | ⟨p, -, -, -, he⟩ := execEncode_cases s
    · exact .inr ⟨s, _, _, infoFits_fieldNumber i, .inr rfl, he⟩
    · exact .inr ⟨s, _, _, rfl, .inr rfl, he⟩
    · exact .inl he
    · exact .inr ⟨_, _, _, rfl, .inl rfl, he⟩
  | decode skip =>
    obtain ⟨-, he⟩ | ⟨-, -, he⟩ | ⟨first, -, -, ⟨-, he⟩ | ⟨-, -, he⟩ | ⟨b, -, -, he⟩⟩ := execDecode_cases skip s
    · exact .inr ⟨s, _, _, rfl, .inr rfl, he⟩
    · exact .inl he
    · exact .inr ⟨s, _, _, infoFits_headerLength _, .inr rfl, he⟩
    · exact .inl he
    · exact .inr ⟨_, _, _, rfl, .inl rfl, he⟩
  | checksum =>
    obtain ⟨i, -, he⟩ | ⟨-, -, he⟩ | ⟨p, -, -, he⟩ := execChecksum_cases s
    · exact .inr ⟨s, _, _, infoFits_fieldNumber i, .inr rfl, he⟩
    · exact .inl he
    · exact .inr ⟨_, _, _, rfl, .inl rfl, he⟩

section
variable {i : Instr} {s t : State} (ht : exec i s = .next t)
include ht

/-- R102: an error is raised from the state before the command. -/
theorem exec_error_finishes (herr : (statusCode t.status).toNat ≠ 0) : ∃ c n, t = s.finish c n := by
  obtain he | ⟨u, c, n, -, rfl | rfl, he⟩ := exec_endings i s <;> rw [he] at ht <;> cases ht
  · exact absurd (statusCode_statusWord .ok n) herr
  · exact ⟨c, n, rfl⟩

/-- R12 to R14: a command that goes on reports a legal outcome, whatever `STATUS` held before. -/
theorem exec_statusLegal : statusLegal t.status = true := by
  obtain he | ⟨u, c, n, hf, -, he⟩ := exec_endings i s <;> rw [he] at ht <;> cases ht
  exact statusLegal_statusWord c (infoFits_lt hf) hf

end

/-- No command is refused (R34 and R47 refuse host actions only). -/
theorem exec_ne_refused (i : Instr) (s : State) (e : Refusal) : exec i s ≠ .refused e := by
  obtain he | ⟨u, c, n, -, -, he⟩ := exec_endings i s <;> rw [he] <;> nofun

/-- R15, R102: an error seen from the `CMD` write is raised with the issued word in `CMD`. -/
theorem hostAction_cmdWrite_error_finishes {w : Word} {s t : State}
    (ht : hostAction (.writeReg 0x00 .word w) s = .next t) (herr : (statusCode t.status).toNat ≠ 0) :
    ∃ c n, t = ((s.setReply .nothing).setCmd w).finish c n := by
  change issue w (s.setReply .nothing) = .next t at ht
  cases hd : decodeWord w with
  | command i =>
    rw [issue_of_command hd] at ht
    exact exec_error_finishes ht herr
  | illegal why =>
    rw [issue_of_illegal hd] at ht
    cases ht
    exact ⟨_, _, rfl⟩

/-- Settles O47: `finish` writes `STATUS` only, and a `CMD` write has set `CMD` and the reply before. -/
theorem errorsWriteStatusOnly : Obligations.ErrorsWriteStatusOnly := by
  refine ⟨fun i s t ht herr => ?_, fun w s t ht herr => ?_⟩
  · obtain ⟨c, n, rfl⟩ := exec_error_finishes ht herr
    rfl
  · obtain ⟨c, n, rfl⟩ := hostAction_cmdWrite_error_finishes ht herr
    rfl

/-- Settles O54: a ready command goes on, with a legal outcome, and none is refused. -/
theorem readyCommandsComplete : Obligations.ReadyCommandsComplete := by
  refine ⟨fun i s hready => ?_, exec_ne_refused⟩
  obtain ⟨t, ht⟩ := exec_of_ready hready
  exact ⟨t, ht, exec_statusLegal ht⟩

end Sys2Proof.Machine
end

section
/-! Reset and power-on: O14, O15 and O46. -/

namespace Sys2Proof.Machine

/-- A block whose buffers list no octet has none written (R23, R116). -/
theorem State.buf_read_eq_none {s : State} (hwire : s.wire = []) (hpay : s.pay = []) (b : Buf) (a : Nat) :
    (s.buf b).read a = none := by
  cases b with
  | wire => rw [State.buf_wire, hwire, Memory.read_nil]
  | pay => rw [State.buf_pay, hpay, Memory.read_nil]

/-- R5: the parameters chosen for `State.reset` are legal. -/
theorem resetConfig_wf : resetConfig.wf := by decide

/-- Settles O14: `State.resetWith` sets the registers and marks as stated, and lists no octet in either buffer. -/
theorem powerOnStateHoldsTheResetValues : Obligations.PowerOnStateHoldsTheResetValues :=
  fun _ => ⟨rfl, rfl, rfl, rfl, rfl, rfl, State.buf_read_eq_none rfl rfl, rfl, rfl⟩

/-- Settles O15: reset goes on to `takeReset`, whose registers and buffers are those of power-on and whose marks are
those before. -/
theorem resetRestoresTheResetValues : Obligations.ResetRestoresTheResetValues := fun s =>
  have hread := State.buf_read_eq_none s.takeReset_wire s.takeReset_pay
  ⟨s.takeReset, rfl, s.takeReset_status, s.takeReset_cmd, s.takeReset_csumResult, s.takeReset_wireLen,
    s.takeReset_payLen, s.takeReset_f, hread, s.takeReset_faultMark, s.takeReset_refusedMark⟩

/-- Settles O46: `State.reset` is the power-on state of legal parameters. -/
theorem powerOnStateHasTheInvariant : Obligations.PowerOnStateHasTheInvariant :=
  ⟨fun _ hc => inv_resetWith hc, inv_resetWith resetConfig_wf⟩

end Sys2Proof.Machine
end
